-- ==== Sys2Proof/Word.lean ====
section
/-! DEFINITION. The machine's words: every value is unsigned (00_scope.md R8). -/

namespace Sys2Proof

/-- One memory byte, one register or one timer: 8 bits (10_state.md R21, R26, R30). -/
abbrev Byte := BitVec 8

/-- An instruction word, `pc`, `I` or a stack entry: 16 bits (10_state.md R23 to R25). -/
abbrev Word := BitVec 16

/-- An immediate address `nnn`: 12 bits (30_encoding.md R71). -/
abbrev Addr := BitVec 12

/-- A nibble: 4 bits (00_scope.md R7). -/
abbrev Nibble := BitVec 4

/-- A register, key or glyph number, 0 to 15 (10_state.md R21, R29). -/
abbrev Reg := Fin 16

end Sys2Proof
end

