-- ==== Sys2Proof/Syntax.lean ====
section
/-! DEFINITION. The instruction set: one constructor per row of spec/opcode_table.json, in the table's order
(30_encoding.md R75). -/

namespace Sys2Proof

/-- An instruction. Each operand has exactly the width its field has in the word (30_encoding.md R71, R73), so
that every term is well formed. -/
inductive Instr where
  /-- 00E0 CLS -/
  | cls
  /-- 00EE RET -/
  | ret
  /-- 1nnn JP nnn -/
  | jp (nnn : Addr)
  /-- 2nnn CALL nnn -/
  | call (nnn : Addr)
  /-- 3xkk SE Vx, kk -/
  | seImm (x : Reg) (kk : Byte)
  /-- 4xkk SNE Vx, kk -/
  | sneImm (x : Reg) (kk : Byte)
  /-- 5xy0 SE Vx, Vy -/
  | seReg (x y : Reg)
  /-- 6xkk LD Vx, kk -/
  | ldImm (x : Reg) (kk : Byte)
  /-- 7xkk ADD Vx, kk -/
  | addImm (x : Reg) (kk : Byte)
  /-- 8xy0 LD Vx, Vy -/
  | ldReg (x y : Reg)
  /-- 8xy1 OR Vx, Vy -/
  | orReg (x y : Reg)
  /-- 8xy2 AND Vx, Vy -/
  | andReg (x y : Reg)
  /-- 8xy3 XOR Vx, Vy -/
  | xorReg (x y : Reg)
  /-- 8xy4 ADD Vx, Vy -/
  | addReg (x y : Reg)
  /-- 8xy5 SUB Vx, Vy -/
  | subReg (x y : Reg)
  /-- 8xy6 SHR Vx; the field `y` is kept but takes no part (30_encoding.md R77) -/
  | shr (x y : Reg)
  /-- 8xy7 SUBN Vx, Vy -/
  | subnReg (x y : Reg)
  /-- 8xyE SHL Vx; the field `y` is kept but takes no part (30_encoding.md R77) -/
  | shl (x y : Reg)
  /-- 9xy0 SNE Vx, Vy -/
  | sneReg (x y : Reg)
  /-- Annn LD I, nnn -/
  | ldI (nnn : Addr)
  /-- Bnnn JP V0, nnn -/
  | jpV0 (nnn : Addr)
  /-- Cxkk RND Vx, kk -/
  | rnd (x : Reg) (kk : Byte)
  /-- Dxyn DRW Vx, Vy, n -/
  | drw (x y : Reg) (n : Nibble)
  /-- Ex9E SKP Vx -/
  | skp (x : Reg)
  /-- ExA1 SKNP Vx -/
  | sknp (x : Reg)
  /-- Fx07 LD Vx, DT -/
  | ldVxDt (x : Reg)
  /-- Fx0A LD Vx, K -/
  | ldVxK (x : Reg)
  /-- Fx15 LD DT, Vx -/
  | ldDtVx (x : Reg)
  /-- Fx18 LD ST, Vx -/
  | ldStVx (x : Reg)
  /-- Fx1E ADD I, Vx -/
  | addI (x : Reg)
  /-- Fx29 LD F, Vx -/
  | ldF (x : Reg)
  /-- Fx33 LD B, Vx -/
  | ldB (x : Reg)
  /-- Fx55 LD [I], Vx -/
  | stRegs (x : Reg)
  /-- Fx65 LD Vx, [I] -/
  | ldRegs (x : Reg)
deriving DecidableEq, Repr

/-- The mnemonic of the instruction's row in spec/opcode_table.json. -/
def Instr.mnemonic : Instr → String
  | .cls => "CLS"
  | .ret => "RET"
  | .jp _ => "JP_nnn"
  | .call _ => "CALL_nnn"
  | .seImm _ _ => "SE_Vx__kk"
  | .sneImm _ _ => "SNE_Vx__kk"
  | .seReg _ _ => "SE_Vx__Vy"
  | .ldImm _ _ => "LD_Vx__kk"
  | .addImm _ _ => "ADD_Vx__kk"
  | .ldReg _ _ => "LD_Vx__Vy"
  | .orReg _ _ => "OR_Vx__Vy"
  | .andReg _ _ => "AND_Vx__Vy"
  | .xorReg _ _ => "XOR_Vx__Vy"
  | .addReg _ _ => "ADD_Vx__Vy"
  | .subReg _ _ => "SUB_Vx__Vy"
  | .shr _ _ => "SHR_Vx"
  | .subnReg _ _ => "SUBN_Vx__Vy"
  | .shl _ _ => "SHL_Vx"
  | .sneReg _ _ => "SNE_Vx__Vy"
  | .ldI _ => "LD_I__nnn"
  | .jpV0 _ => "JP_V0__nnn"
  | .rnd _ _ => "RND_Vx__kk"
  | .drw _ _ _ => "DRW_Vx__Vy__n"
  | .skp _ => "SKP_Vx"
  | .sknp _ => "SKNP_Vx"
  | .ldVxDt _ => "LD_Vx__DT"
  | .ldVxK _ => "LD_Vx__K"
  | .ldDtVx _ => "LD_DT__Vx"
  | .ldStVx _ => "LD_ST__Vx"
  | .addI _ => "ADD_I__Vx"
  | .ldF _ => "LD_F__Vx"
  | .ldB _ => "LD_B__Vx"
  | .stRegs _ => "LD__I___Vx"
  | .ldRegs _ => "LD_Vx___I"

end Sys2Proof
end

