-- ==== Sys2Proof/WellFormed.lean ====
section
/-! DEFINITION. Which instruction words are well formed: the opcode map of 30_encoding.md R75, one mask and match
value per row, written apart from the decoder. Instructions themselves need no check, since each operand's type is
exactly its field (30_encoding.md R73). -/

namespace Sys2Proof

/-- One row of the opcode map: a word belongs to it when its masked bits equal `value` (30_encoding.md R74). -/
structure OpcodeRow where
  mnemonic : String
  mask : Word
  value : Word
deriving DecidableEq, Repr

/-- `op & mask == match` (30_encoding.md R74). -/
def OpcodeRow.covers (r : OpcodeRow) (op : Word) : Bool := op &&& r.mask == r.value

/-- Rows 1 to 7 of the map: families 0 to 5. -/
def opcodeMapFlow : List OpcodeRow :=
  [ ⟨"CLS", 0xFFFF, 0x00E0⟩,
    ⟨"RET", 0xFFFF, 0x00EE⟩,
    ⟨"JP_nnn", 0xF000, 0x1000⟩,
    ⟨"CALL_nnn", 0xF000, 0x2000⟩,
    ⟨"SE_Vx__kk", 0xF000, 0x3000⟩,
    ⟨"SNE_Vx__kk", 0xF000, 0x4000⟩,
    ⟨"SE_Vx__Vy", 0xF00F, 0x5000⟩ ]

/-- Rows 8 to 18 of the map: families 6 to 8. -/
def opcodeMapAlu : List OpcodeRow :=
  [ ⟨"LD_Vx__kk", 0xF000, 0x6000⟩,
    ⟨"ADD_Vx__kk", 0xF000, 0x7000⟩,
    ⟨"LD_Vx__Vy", 0xF00F, 0x8000⟩,
    ⟨"OR_Vx__Vy", 0xF00F, 0x8001⟩,
    ⟨"AND_Vx__Vy", 0xF00F, 0x8002⟩,
    ⟨"XOR_Vx__Vy", 0xF00F, 0x8003⟩,
    ⟨"ADD_Vx__Vy", 0xF00F, 0x8004⟩,
    ⟨"SUB_Vx__Vy", 0xF00F, 0x8005⟩,
    ⟨"SHR_Vx", 0xF00F, 0x8006⟩,
    ⟨"SUBN_Vx__Vy", 0xF00F, 0x8007⟩,
    ⟨"SHL_Vx", 0xF00F, 0x800E⟩ ]

/-- Rows 19 to 34 of the map: families 9 to F. -/
def opcodeMapRest : List OpcodeRow :=
  [ ⟨"SNE_Vx__Vy", 0xF00F, 0x9000⟩,
    ⟨"LD_I__nnn", 0xF000, 0xA000⟩,
    ⟨"JP_V0__nnn", 0xF000, 0xB000⟩,
    ⟨"RND_Vx__kk", 0xF000, 0xC000⟩,
    ⟨"DRW_Vx__Vy__n", 0xF000, 0xD000⟩,
    ⟨"SKP_Vx", 0xF0FF, 0xE09E⟩,
    ⟨"SKNP_Vx", 0xF0FF, 0xE0A1⟩,
    ⟨"LD_Vx__DT", 0xF0FF, 0xF007⟩,
    ⟨"LD_Vx__K", 0xF0FF, 0xF00A⟩,
    ⟨"LD_DT__Vx", 0xF0FF, 0xF015⟩,
    ⟨"LD_ST__Vx", 0xF0FF, 0xF018⟩,
    ⟨"ADD_I__Vx", 0xF0FF, 0xF01E⟩,
    ⟨"LD_F__Vx", 0xF0FF, 0xF029⟩,
    ⟨"LD_B__Vx", 0xF0FF, 0xF033⟩,
    ⟨"LD__I___Vx", 0xF0FF, 0xF055⟩,
    ⟨"LD_Vx___I", 0xF0FF, 0xF065⟩ ]

/-- The opcode map, row for row (30_encoding.md R75). -/
def opcodeMap : List OpcodeRow := opcodeMapFlow ++ opcodeMapAlu ++ opcodeMapRest

/-- A word is legal when some row of the map covers it; every other word is illegal (30_encoding.md R74, R76). -/
def legalWord (op : Word) : Bool := opcodeMap.any (fun r => r.covers op)

end Sys2Proof
end

