-- ==== Sys2Proof/Decode.lean ====
section
/-! DEFINITION. Decoding (30_encoding.md R71 to R77, 40_step_cycle.md R93), total on any two bytes, and the encoder
written from the same formats (30_encoding.md R72). -/

namespace Sys2Proof

/-- Why a word is illegal: the rows of the table in 30_encoding.md R76. All of them raise `DecodeError`. -/
inductive Reject where
  /-- family 0, neither 00E0 nor 00EE -/
  | family0
  /-- 5xyN with N not 0 -/
  | family5
  /-- 8xyN with N one of 8, 9, A, B, C, D, F -/
  | family8
  /-- 9xyN with N not 0 -/
  | family9
  /-- Exkk with kk neither 9E nor A1 -/
  | familyE
  /-- Fxkk with kk none of 07, 0A, 15, 18, 1E, 29, 33, 55, 65 -/
  | familyF
deriving DecidableEq, Repr

/-- The fields of a word (30_encoding.md R71). -/
def fieldF (op : Word) : Nibble := op.extractLsb' 12 4

/-- Bits 11 to 8 as a register number. -/
def fieldX (op : Word) : Reg := ⟨(op.extractLsb' 8 4).toNat, (op.extractLsb' 8 4).isLt⟩

/-- Bits 7 to 4 as a register number. -/
def fieldY (op : Word) : Reg := ⟨(op.extractLsb' 4 4).toNat, (op.extractLsb' 4 4).isLt⟩

/-- Bits 3 to 0. -/
def fieldN (op : Word) : Nibble := op.extractLsb' 0 4

/-- Bits 7 to 0. -/
def fieldKK (op : Word) : Byte := op.extractLsb' 0 8

/-- Bits 11 to 0. -/
def fieldNNN (op : Word) : Addr := op.extractLsb' 0 12

/-- Family 0 is matched on all sixteen bits (30_encoding.md R74). -/
def decode0 (op : Word) : Except Reject Instr :=
  match op with
  | 0x00E0#16 => .ok .cls
  | 0x00EE#16 => .ok .ret
  | _ => .error .family0

/-- Family 5: the low nibble must be 0 (30_encoding.md R76). -/
def decode5 (x y : Reg) (n : Nibble) : Except Reject Instr :=
  match n with
  | 0x0#4 => .ok (.seReg x y)
  | _ => .error .family5

/-- Family 8: the low nibble selects (30_encoding.md R74). -/
def decode8 (x y : Reg) (n : Nibble) : Except Reject Instr :=
  match n with
  | 0x0#4 => .ok (.ldReg x y)
  | 0x1#4 => .ok (.orReg x y)
  | 0x2#4 => .ok (.andReg x y)
  | 0x3#4 => .ok (.xorReg x y)
  | 0x4#4 => .ok (.addReg x y)
  | 0x5#4 => .ok (.subReg x y)
  | 0x6#4 => .ok (.shr x y)
  | 0x7#4 => .ok (.subnReg x y)
  | 0xE#4 => .ok (.shl x y)
  | _ => .error .family8

/-- Family 9: the low nibble must be 0 (30_encoding.md R76). -/
def decode9 (x y : Reg) (n : Nibble) : Except Reject Instr :=
  match n with
  | 0x0#4 => .ok (.sneReg x y)
  | _ => .error .family9

/-- Family E: all eight bits of the low byte select (30_encoding.md R74). -/
def decodeE (x : Reg) (kk : Byte) : Except Reject Instr :=
  match kk with
  | 0x9E#8 => .ok (.skp x)
  | 0xA1#8 => .ok (.sknp x)
  | _ => .error .familyE

/-- Family F: all eight bits of the low byte select (30_encoding.md R74). -/
def decodeF (x : Reg) (kk : Byte) : Except Reject Instr :=
  match kk with
  | 0x07#8 => .ok (.ldVxDt x)
  | 0x0A#8 => .ok (.ldVxK x)
  | 0x15#8 => .ok (.ldDtVx x)
  | 0x18#8 => .ok (.ldStVx x)
  | 0x1E#8 => .ok (.addI x)
  | 0x29#8 => .ok (.ldF x)
  | 0x33#8 => .ok (.ldB x)
  | 0x55#8 => .ok (.stRegs x)
  | 0x65#8 => .ok (.ldRegs x)
  | _ => .error .familyF

/-- Decoding reads nothing but the word (30_encoding.md R74, R80, 40_step_cycle.md R93). -/
def decode (op : Word) : Except Reject Instr :=
  match fieldF op with
  | 0x0#4 => decode0 op
  | 0x1#4 => .ok (.jp (fieldNNN op))
  | 0x2#4 => .ok (.call (fieldNNN op))
  | 0x3#4 => .ok (.seImm (fieldX op) (fieldKK op))
  | 0x4#4 => .ok (.sneImm (fieldX op) (fieldKK op))
  | 0x5#4 => decode5 (fieldX op) (fieldY op) (fieldN op)
  | 0x6#4 => .ok (.ldImm (fieldX op) (fieldKK op))
  | 0x7#4 => .ok (.addImm (fieldX op) (fieldKK op))
  | 0x8#4 => decode8 (fieldX op) (fieldY op) (fieldN op)
  | 0x9#4 => decode9 (fieldX op) (fieldY op) (fieldN op)
  | 0xA#4 => .ok (.ldI (fieldNNN op))
  | 0xB#4 => .ok (.jpV0 (fieldNNN op))
  | 0xC#4 => .ok (.rnd (fieldX op) (fieldKK op))
  | 0xD#4 => .ok (.drw (fieldX op) (fieldY op) (fieldN op))
  | 0xE#4 => decodeE (fieldX op) (fieldKK op)
  | _ => decodeF (fieldX op) (fieldKK op)

/-- The word made of two bytes of memory: the byte at the lower address is the high byte (20_memory.md R54). -/
def wordOfBytes (hi lo : Byte) : Word := hi ++ lo

/-- The high byte of a word, the one stored at the lower address (20_memory.md R54). -/
def highByte (op : Word) : Byte := op.extractLsb' 8 8

/-- The low byte of a word. -/
def lowByte (op : Word) : Byte := op.extractLsb' 0 8

/-- Decoding the two bytes found at `pc` and `pc + 1` (20_memory.md R54). -/
def decodeBytes (hi lo : Byte) : Except Reject Instr := decode (wordOfBytes hi lo)

/-- The instruction word of an opcode-table number: bits at and above `nbits` are 0 (every row of the table has 16). -/
def tableWord (nbits w : Nat) : Word := BitVec.ofNat 16 (w % 2 ^ nbits)

/-- The instruction the decoder reads from the opcode table's number `w`, laid out in memory order. -/
def decodeTableWord (nbits w : Nat) : Option Instr :=
  (decodeBytes (highByte (tableWord nbits w)) (lowByte (tableWord nbits w))).toOption

/-- A register number as the four bits of its field. -/
def regBits (x : Reg) : Nibble := BitVec.ofNat 4 x.val

/-- Format NNN (30_encoding.md R72). -/
def formNNN (f : Nibble) (nnn : Addr) : Word := f ++ nnn

/-- Format XKK, and XSS with a fixed low byte (30_encoding.md R72). -/
def formXKK (f : Nibble) (x : Reg) (kk : Byte) : Word := (f ++ regBits x ++ kk : BitVec 16)

/-- Format XYN, and XYS with a fixed low nibble (30_encoding.md R72). -/
def formXYN (f : Nibble) (x y : Reg) (n : Nibble) : Word := (f ++ regBits x ++ regBits y ++ n : BitVec 16)

/-- The word of an instruction (30_encoding.md R72, R75). -/
def encode : Instr → Word
  | .cls => 0x00E0
  | .ret => 0x00EE
  | .jp nnn => formNNN 0x1 nnn
  | .call nnn => formNNN 0x2 nnn
  | .seImm x kk => formXKK 0x3 x kk
  | .sneImm x kk => formXKK 0x4 x kk
  | .seReg x y => formXYN 0x5 x y 0x0
  | .ldImm x kk => formXKK 0x6 x kk
  | .addImm x kk => formXKK 0x7 x kk
  | .ldReg x y => formXYN 0x8 x y 0x0
  | .orReg x y => formXYN 0x8 x y 0x1
  | .andReg x y => formXYN 0x8 x y 0x2
  | .xorReg x y => formXYN 0x8 x y 0x3
  | .addReg x y => formXYN 0x8 x y 0x4
  | .subReg x y => formXYN 0x8 x y 0x5
  | .shr x y => formXYN 0x8 x y 0x6
  | .subnReg x y => formXYN 0x8 x y 0x7
  | .shl x y => formXYN 0x8 x y 0xE
  | .sneReg x y => formXYN 0x9 x y 0x0
  | .ldI nnn => formNNN 0xA nnn
  | .jpV0 nnn => formNNN 0xB nnn
  | .rnd x kk => formXKK 0xC x kk
  | .drw x y n => formXYN 0xD x y n
  | .skp x => formXKK 0xE x 0x9E
  | .sknp x => formXKK 0xE x 0xA1
  | .ldVxDt x => formXKK 0xF x 0x07
  | .ldVxK x => formXKK 0xF x 0x0A
  | .ldDtVx x => formXKK 0xF x 0x15
  | .ldStVx x => formXKK 0xF x 0x18
  | .addI x => formXKK 0xF x 0x1E
  | .ldF x => formXKK 0xF x 0x29
  | .ldB x => formXKK 0xF x 0x33
  | .stRegs x => formXKK 0xF x 0x55
  | .ldRegs x => formXKK 0xF x 0x65

end Sys2Proof
end

