-- ==== Sys2Proof/Config.lean ====
section
/-! DEFINITION. What is fixed for the machine (00_scope.md R6), and its one free value, the random input. -/

namespace Sys2Proof.Config

/-- MEM_SIZE: 4096 bytes, addresses 0x000 to 0xFFF (00_scope.md R6). -/
abbrev memSize : Nat := 4096

/-- FONT_SIZE: 16 glyphs of 5 bytes (00_scope.md R6). -/
abbrev fontSize : Nat := 80

/-- LOAD_ADDR: where `loadProgram` puts the image (00_scope.md R6). -/
abbrev loadAddr : Nat := 0x200

/-- MAX_ROM: the remaining capacity, 4096 - 512 bytes (00_scope.md R6). -/
abbrev maxRom : Nat := 3584

/-- FB_W: columns of the framebuffer (00_scope.md R6). -/
abbrev fbWidth : Nat := 64

/-- FB_H: rows of the framebuffer (00_scope.md R6). -/
abbrev fbHeight : Nat := 32

/-- The random input `rnd` of the n-th draw (40_step_cycle.md R102): a free value, under no law, so that
nothing can be proved of it. DESIGN CHOICE (log entry 2): the stream is indexed by `State.draws`. Safe. -/
opaque freeRnd : Nat → Byte

end Sys2Proof.Config
end

