-- ==== Sys2Proof/Machine/Font.lean ====
section
/-! DEFINITION. The parameter FONT with its default value (20_memory.md R52). PRESUMED (log entry 3): the source gives
the placement and the size, the byte values are the family's customary font. Unsafe. -/

namespace Sys2Proof.Machine

/-- Glyphs 0 to 7, five bytes each. -/
def fontLow : List Byte :=
  [ 0xF0, 0x90, 0x90, 0x90, 0xF0,
    0x20, 0x60, 0x20, 0x20, 0x70,
    0xF0, 0x10, 0xF0, 0x80, 0xF0,
    0xF0, 0x10, 0xF0, 0x10, 0xF0,
    0x90, 0x90, 0xF0, 0x10, 0x10,
    0xF0, 0x80, 0xF0, 0x10, 0xF0,
    0xF0, 0x80, 0xF0, 0x90, 0xF0,
    0xF0, 0x10, 0x20, 0x40, 0x40 ]

/-- Glyphs 8 to F, five bytes each. -/
def fontHigh : List Byte :=
  [ 0xF0, 0x90, 0xF0, 0x90, 0xF0,
    0xF0, 0x90, 0xF0, 0x10, 0xF0,
    0xF0, 0x90, 0xF0, 0x90, 0x90,
    0xE0, 0x90, 0xE0, 0x90, 0xE0,
    0xF0, 0x80, 0x80, 0x80, 0xF0,
    0xE0, 0x90, 0x90, 0x90, 0xE0,
    0xF0, 0x80, 0xF0, 0x80, 0xF0,
    0xF0, 0x80, 0xF0, 0x80, 0x80 ]

/-- FONT: the glyph of digit d stands at address 5*d (20_memory.md R51, R52). -/
def font : List Byte := fontLow ++ fontHigh

/-- What an address reads as when nothing has been written there since `initialize`: the font below 0x050, zero above
(10_state.md R33, 70_reset_and_hazards.md R240). -/
def resetByte (a : Nat) : Byte := font.getD a 0

end Sys2Proof.Machine
end

