-- ==== Sys2Proof/Machine/State.lean ====
section
/-! DEFINITION. The state of the machine, every piece 10_state.md R20 lists, and its value after `initialize`
(10_state.md R33). -/

namespace Sys2Proof.Machine

/-- How a step could stop the model outright. There is NO constructor, because no step does: every fault of the spec is
taken as a next state whose `fault` latch holds the kind (40_step_cycle.md R98, 60_exceptions.md R217), and the halted
machine answers itself (40_step_cycle.md R91). Log entry 1, safe. -/
inductive Fault where
deriving DecidableEq, Repr

/-- Why the model has no meaning for an instruction. -/
inductive Refusal where
  /-- Raised by an arm of `exec` whose instruction has no meaning yet: none is left. Safe. -/
  | notModelled (mnemonic : String)
deriving DecidableEq, Repr

/-- The kinds the fault latch can hold beside None (10_state.md R32, 60_exceptions.md R210). -/
inductive FaultKind where
  /-- the fetched word is none of the 34 instructions (60_exceptions.md R211) -/
  | decodeError
  /-- an access or index out of range (60_exceptions.md R212) -/
  | outOfBounds
  /-- 00EE with an empty stack (60_exceptions.md R213) -/
  | stackUnderflow
  /-- 2nnn with a full stack (60_exceptions.md R214) -/
  | stackOverflow
deriving DecidableEq, Repr

/-- Memory: (address, byte) pairs, addresses strictly rising, no entry equal to what an unlisted address reads as. -/
abbrev Memory := List Host.Cell

/-- The register file `V` (10_state.md R21). -/
abbrev Regs := Vector Byte 16

/-- The framebuffer, 64 columns by 32 rows: bit `cx` of row `cy` is cell `FB[64*cy + cx]` (10_state.md R27). -/
abbrev Framebuffer := Vector (BitVec 64) 32

/-- The state of the machine (10_state.md R20, R37). -/
structure State where
  /-- `V[0..15]` (R21, R22) -/
  v : Regs
  /-- the program counter (R23) -/
  pc : Word
  /-- the index register `I` (R24) -/
  i : Word
  /-- the call stack `STK[0..15]` (R25) -/
  stk : Vector Word 16
  /-- the stack pointer `SP`, 0 to 16: how many entries are in use (R25) -/
  sp : Fin 17
  /-- the delay timer `DT` (R26) -/
  dt : Byte
  /-- the sound timer `ST` (R26) -/
  st : Byte
  /-- the framebuffer `FB` (R27) -/
  fb : Framebuffer
  /-- the framebuffer-written flag `DIRTY` (R28) -/
  dirty : Bool
  /-- the key levels `K`, true = pressed (R29) -/
  k : Vector Bool 16
  /-- memory `MEM` (R30, 20_memory.md) -/
  mem : Memory
  /-- `OPC`, the word fetched by the last step that did not fault (R31, log entry 4) -/
  opc : Word
  /-- the fault latch `FAULT`, none = None (R32) -/
  fault : Option FaultKind
  /-- the model's own: how many random bytes have been drawn, the index of the free value `Config.freeRnd`
  (40_step_cycle.md R102, log entry 2) -/
  draws : Nat
deriving DecidableEq, Repr

/-- The machine right after `initialize` (10_state.md R33, 70_reset_and_hazards.md R240). Memory lists nothing: an
unlisted address reads as its reset contents (log entry 3). `draws` is the model's own (log entry 2). -/
def State.reset : State where
  v := Vector.replicate 16 0
  pc := 0x200
  i := 0
  stk := Vector.replicate 16 0
  sp := 0
  dt := 0
  st := 0
  fb := Vector.replicate 32 0
  dirty := false
  k := Vector.replicate 16 false
  mem := []
  opc := 0
  fault := none
  draws := 0

end Sys2Proof.Machine
end

