-- ==== Sys2Proof/Machine/Ops.lean ====
section
/-! DEFINITION. The named operations over memory, registers, stack, framebuffer, timers and the fault latch. -/

namespace Sys2Proof.Machine

/-! ## Memory (20_memory.md) -/

/-- `MemRead(addr, 1)` (20_memory.md R53). -/
def Memory.read (m : Memory) (a : Nat) : Byte :=
  match m with
  | [] => resetByte a
  | (c, b) :: rest => if c = a then b else Memory.read rest a

/-- A cell in front of a memory whose addresses all lie above it, left out where it says what is read anyway. -/
def Memory.cons (a : Nat) (b : Byte) (m : Memory) : Memory :=
  if b = resetByte a then m else (a, b) :: m

/-- `MemWrite(addr, 1, v)` (20_memory.md R53), keeping the canonical form. -/
def Memory.write (m : Memory) (a : Nat) (b : Byte) : Memory :=
  match m with
  | [] => Memory.cons a b []
  | (c, d) :: rest =>
    if a < c then Memory.cons a b ((c, d) :: rest)
    else if a = c then Memory.cons a b rest
    else (c, d) :: Memory.write rest a b

/-- The canonical form: addresses inside 0 to 4095 (20_memory.md R50), strictly rising, no entry that says what an
unlisted address reads as. -/
abbrev Memory.wf (m : Memory) : Prop :=
  m.Pairwise (fun p q => p.1 < q.1) ∧ ∀ p ∈ m, p.1 < Config.memSize ∧ p.2 ≠ resetByte p.1

/-- `n` bytes from address `a` upward (20_memory.md R56). -/
def Memory.readBytes (m : Memory) (a : Nat) (n : Nat) : List Byte :=
  match n with
  | 0 => []
  | n + 1 => m.read a :: Memory.readBytes m (a + 1) n

/-- The bytes stored from address `a` upward, in ascending order (20_memory.md R54, R59). -/
def Memory.writeBytes (m : Memory) (a : Nat) (bytes : List Byte) : Memory :=
  match bytes with
  | [] => m
  | b :: bs => Memory.writeBytes (m.write a b) (a + 1) bs

/-- The one bound check: the `n` addresses from `base` upward all lie in memory, on unbounded integers, with no wrap
(20_memory.md R50, R58). -/
def rangeOk (base n : Nat) : Bool := decide (base + n ≤ Config.memSize)

/-! ## Registers (10_state.md R21, R22) -/

/-- `V[x]`. -/
def State.reg (s : State) (x : Reg) : Byte := s.v[x]

/-- `V[x] <- b`. -/
def State.setReg (s : State) (x : Reg) (b : Byte) : State := { s with v := s.v.set x b }

/-- VF is `V[15]` (10_state.md R22). -/
def vf : Reg := 15

/-- The registers from number `j` upward take the bytes in turn (43_index_memory.md R165). -/
def Regs.fill (v : Regs) (bytes : List Byte) (j : Nat) : Regs :=
  match bytes with
  | [] => v
  | b :: bs => Regs.fill (v.setIfInBounds j b) bs (j + 1)

/-- The values of `V[0]` to `V[x]` (43_index_memory.md R164). -/
def Regs.upTo (v : Regs) (x : Reg) : List Byte := v.toList.take (x.val + 1)

/-! ## Program counter (10_state.md R23, 40_step_cycle.md R95) -/

/-- `pc <- target`. -/
def State.jump (s : State) (target : Word) : State := { s with pc := target }

/-- `pc <- pc + 2`. DEDUCED (log entry 5): the sum is taken on 16 bits, which is the plain integer for every `pc` that
can be fetched from. -/
def State.advance (s : State) : State := s.jump (s.pc + 2)

/-- A skip: `pc + 4` when the condition holds, else `pc + 2` (40_step_cycle.md R95, R96). -/
def State.skipIf (s : State) (c : Bool) : State := s.jump (if c then s.pc + 4 else s.pc + 2)

/-! ## Faults (40_step_cycle.md R98, 60_exceptions.md R217) -/

/-- `raise kind`: taking a fault from the state `s` at the start of the step writes the latch and nothing else. There is no
return from a fault (60_exceptions.md R218). -/
def State.raise (s : State) (kind : FaultKind) : State := { s with fault := some kind }

/-- The machine is halted: `FAULT != None` (10_state.md R32). -/
def State.halted (s : State) : Bool := s.fault.isSome

/-- The numeric codes of the kinds (10_state.md R32, 60_exceptions.md R210). -/
def FaultKind.code : FaultKind → Nat
  | .decodeError => 1
  | .outOfBounds => 2
  | .stackUnderflow => 3
  | .stackOverflow => 4

/-- The numeric code in the latch, None being 0 (10_state.md R32). It is also the step's result, Ok being 0
(40_step_cycle.md R99). -/
def State.faultCode (s : State) : Nat :=
  match s.fault with
  | none => 0
  | some kind => kind.code

/-! ## Call stack (10_state.md R25) -/

/-- A push: the entry at `SP` takes `pc`, then `SP` goes up; nothing where sixteen entries are in use. -/
def State.push (s : State) : Option State :=
  if h : s.sp.val < 16 then
    some { s with stk := s.stk.set s.sp.val s.pc, sp := ⟨s.sp.val + 1, by omega⟩ }
  else none

/-- A pop: `SP` goes down, and the entry it then names is the popped value, which stays in the stack; nothing where no entry is
in use. -/
def State.pop (s : State) : Option (Word × State) :=
  if h : 0 < s.sp.val then
    some (s.stk[s.sp.val - 1]'(by omega), { s with sp := ⟨s.sp.val - 1, by omega⟩ })
  else none

/-! ## Framebuffer (10_state.md R27, 44_display.md R181 to R183) -/

/-- The cell `FB[64*cy + cx]`; outside the grid there is no cell, and false is answered. -/
def Framebuffer.pixel (fb : Framebuffer) (cx cy : Nat) : Bool := (fb.getD cy 0).getLsbD cx

/-- Cell `FB[n]`, numbered as 10_state.md R27 numbers it. -/
def Framebuffer.cell (fb : Framebuffer) (n : Nat) : Bool := fb.pixel (n % 64) (n / 64)

/-- `FB[64*cy + cx] <- FB[64*cy + cx] ^ 1`. -/
def Framebuffer.flip (fb : Framebuffer) (cx cy : Nat) : Framebuffer :=
  fb.setIfInBounds cy (fb.getD cy 0 ^^^ BitVec.twoPow 64 cx)

/-- A draw in progress: the framebuffer and whether a set pixel has been turned off. -/
structure Blit where
  fb : Framebuffer
  collision : Bool
deriving DecidableEq, Repr

/-- One set sprite bit at (cx, cy), on unbounded integers: dropped outside the grid, never wrapped (44_display.md R181). -/
def Blit.dot (p : Blit) (cx cy : Nat) : Blit :=
  if cx < Config.fbWidth ∧ cy < Config.fbHeight then
    { fb := p.fb.flip cx cy, collision := p.collision || p.fb.pixel cx cy }
  else p

/-- The columns of one sprite row from the list; bit 7 of the byte is the leftmost pixel (44_display.md R183). -/
def Blit.columns (p : Blit) (b : Byte) (vx cy : Nat) (cols : List Nat) : Blit :=
  match cols with
  | [] => p
  | col :: rest =>
    Blit.columns (if b.getLsbD (7 - col) then p.dot (vx + col) cy else p) b vx cy rest

/-- One sprite row: columns 0 to 7. -/
def Blit.row (p : Blit) (b : Byte) (vx cy : Nat) : Blit := p.columns b vx cy [0, 1, 2, 3, 4, 5, 6, 7]

/-- The rows of a sprite from `cy` downward. -/
def Blit.sprite (p : Blit) (bytes : List Byte) (vx cy : Nat) : Blit :=
  match bytes with
  | [] => p
  | b :: bs => Blit.sprite (p.row b vx cy) bs vx (cy + 1)

/-! ## Keys (10_state.md R29, 45_keys_timers.md R192) -/

/-- The smallest key number from the list whose level is pressed. -/
def firstPressed (k : Vector Bool 16) (keys : List Reg) : Option Reg :=
  match keys with
  | [] => none
  | key :: rest => if k[key] then some key else firstPressed k rest

/-- The keys in rising order. -/
def allKeys : List Reg := [0, 1, 2, 3, 4, 5, 6, 7, 8, 9, 10, 11, 12, 13, 14, 15]

/-- The lowest-numbered pressed key, if any (45_keys_timers.md R192). -/
def State.lowestKey (s : State) : Option Reg := firstPressed s.k allKeys

/-! ## Timers (40_step_cycle.md R97) -/

/-- One tick of a timer: down by one, never below 0. -/
def tickDown (t : Byte) : Byte := if t = 0 then 0 else t - 1

/-- The timer update at the end of every step that does not fault. -/
def State.tick (s : State) : State := { s with dt := tickDown s.dt, st := tickDown s.st }

/-! ## The frame of a step (40_step_cycle.md R90) -/

/-- Fetch: the big-endian word at `pc`, nothing where `pc + 1` is no address (40_step_cycle.md R92, 20_memory.md R54). -/
def State.fetch (s : State) : Option (Byte × Byte) :=
  if rangeOk s.pc.toNat 2 then some (s.mem.read s.pc.toNat, s.mem.read (s.pc.toNat + 1)) else none

/-- The fetched word goes to OPC (10_state.md R31). -/
def State.latchOpc (s : State) (op : Word) : State := { s with opc := op }

/-- The end of a step that began in `s` and whose instruction left `t`: a raised fault discards every write of the step
(40_step_cycle.md R98), otherwise the timers tick (40_step_cycle.md R97). -/
def State.endStep (s t : State) : State :=
  match t.fault with
  | some kind => s.raise kind
  | none => t.tick

/-- The outputs beside the framebuffer, the dirty flag and ST: the level `sound_on` (10_state.md R38). -/
def State.soundOn (s : State) : Bool := decide (s.st ≠ 0)

end Sys2Proof.Machine
end

