-- ==== Sys2Proof/Machine/Flags.lean ====
section
/-! DEFINITION. The flag results that go to VF (10_state.md R22, 42_alu.md R142), each computed on exact integers from the
latched operands. -/

namespace Sys2Proof.Machine

/-- A flag as VF receives it: 1 or 0. -/
def flagByte (c : Bool) : Byte := if c then 1 else 0

/-- Carry out of an addition: the sum passes 255 (42_alu.md R136). -/
def carry (a b : Byte) : Byte := flagByte (decide (a.toNat + b.toNat > 255))

/-- No borrow in `a - b`, 1 at equality (42_alu.md R137, R139). -/
def noBorrow (a b : Byte) : Byte := flagByte (decide (a.toNat ≥ b.toNat))

/-- The bit shifted out to the right (42_alu.md R138). -/
def lowBit (a : Byte) : Byte := flagByte (a.getLsbD 0)

/-- The bit shifted out to the left (42_alu.md R140). -/
def highBit (a : Byte) : Byte := flagByte (a.getLsbD 7)

/-- 8xy4, 8xy5, 8xy7: the result first, the flag second, so that the flag stays where `x` is 15 (42_alu.md R143). -/
def State.setResultThenFlag (s : State) (x : Reg) (result flag : Byte) : State := (s.setReg x result).setReg vf flag

/-- 8xy6, 8xyE: the flag first, the result second, so that the result stays where `x` is 15 (42_alu.md R143). -/
def State.setFlagThenResult (s : State) (x : Reg) (result flag : Byte) : State := (s.setReg vf flag).setReg x result

end Sys2Proof.Machine
end

