-- ==== Sys2Proof/Machine/Operands.lean ====
section
/-! DEFINITION. Operand forms: immediates, the address an index register gives, and register numbers read from a
register (30_encoding.md R73, 43_index_memory.md R166). -/

namespace Sys2Proof.Machine

/-- `nnn` zero-extended to 16 bits (30_encoding.md R73). -/
def zext16 (nnn : Addr) : Word := nnn.setWidth 16

/-- A byte zero-extended to 16 bits (00_scope.md R8). -/
def byte16 (b : Byte) : Word := b.setWidth 16

/-- The base address of every data access: the full value of `I` (43_index_memory.md R166, 10_state.md R24). -/
def State.base (s : State) : Nat := s.i.toNat

/-- A register value used as a key or glyph number: 0 to 15, nothing above (20_memory.md R62). -/
def digitOf (b : Byte) : Option Reg := if h : b.toNat < 16 then some ⟨b.toNat, h⟩ else none

/-- How many registers `V[0]` to `V[x]` are (43_index_memory.md R164, R165). -/
def countUpTo (x : Reg) : Nat := x.val + 1

end Sys2Proof.Machine
end

