-- ==== Sys2Proof/Machine/Flow.lean ====
section
/-! DEFINITION. Control transfer (41_flow.md). -/

namespace Sys2Proof.Machine

/-- A control transfer's or any other instruction's outcome: always a next state. -/
abbrev Result := Host.Outcome State Fault Refusal

/-- 00EE RET (41_flow.md R110). -/
def execRet (s : State) : Result :=
  match s.pop with
  | some (popped, s') => .next (s'.jump (popped + 2))
  | none => .next (s.raise .stackUnderflow)

/-- 1nnn JP nnn (41_flow.md R111): the bound check of the table can never fire. -/
def execJp (nnn : Addr) (s : State) : Result := .next (s.jump (zext16 nnn))

/-- 2nnn CALL nnn (41_flow.md R112): the address of the call itself is pushed. -/
def execCall (nnn : Addr) (s : State) : Result :=
  match s.push with
  | some s' => .next (s'.jump (zext16 nnn))
  | none => .next (s.raise .stackOverflow)

/-- 3xkk SE Vx, kk (41_flow.md R113). -/
def execSeImm (x : Reg) (kk : Byte) (s : State) : Result := .next (s.skipIf (s.reg x == kk))

/-- 4xkk SNE Vx, kk (41_flow.md R114). -/
def execSneImm (x : Reg) (kk : Byte) (s : State) : Result := .next (s.skipIf (s.reg x != kk))

/-- 5xy0 SE Vx, Vy (41_flow.md R115). -/
def execSeReg (x y : Reg) (s : State) : Result := .next (s.skipIf (s.reg x == s.reg y))

/-- 9xy0 SNE Vx, Vy (41_flow.md R116). -/
def execSneReg (x y : Reg) (s : State) : Result := .next (s.skipIf (s.reg x != s.reg y))

/-- Bnnn JP V0, nnn (41_flow.md R117): the sum is not reduced to 12 bits. -/
def execJpV0 (nnn : Addr) (s : State) : Result := .next (s.jump (zext16 nnn + byte16 (s.reg 0)))

end Sys2Proof.Machine
end

