-- ==== Sys2Proof/Machine/Alu.lean ====
section
/-! DEFINITION. Register and ALU instructions (42_alu.md): none can fault, all advance `pc` by 2. -/

namespace Sys2Proof.Machine

/-- 6xkk LD Vx, kk (42_alu.md R130). -/
def execLdImm (x : Reg) (kk : Byte) (s : State) : Result := .next (s.setReg x kk).advance

/-- 7xkk ADD Vx, kk (42_alu.md R131): modulo 256, no flag. -/
def execAddImm (x : Reg) (kk : Byte) (s : State) : Result := .next (s.setReg x (s.reg x + kk)).advance

/-- 8xy0 LD Vx, Vy (42_alu.md R132). -/
def execLdReg (x y : Reg) (s : State) : Result := .next (s.setReg x (s.reg y)).advance

/-- 8xy1 OR Vx, Vy (42_alu.md R133). -/
def execOr (x y : Reg) (s : State) : Result := .next (s.setReg x (s.reg x ||| s.reg y)).advance

/-- 8xy2 AND Vx, Vy (42_alu.md R134). -/
def execAnd (x y : Reg) (s : State) : Result := .next (s.setReg x (s.reg x &&& s.reg y)).advance

/-- 8xy3 XOR Vx, Vy (42_alu.md R135). -/
def execXor (x y : Reg) (s : State) : Result := .next (s.setReg x (s.reg x ^^^ s.reg y)).advance

/-- 8xy4 ADD Vx, Vy (42_alu.md R136, R143). -/
def execAddReg (x y : Reg) (s : State) : Result :=
  .next (s.setResultThenFlag x (s.reg x + s.reg y) (carry (s.reg x) (s.reg y))).advance

/-- 8xy5 SUB Vx, Vy (42_alu.md R137, R143). -/
def execSub (x y : Reg) (s : State) : Result :=
  .next (s.setResultThenFlag x (s.reg x - s.reg y) (noBorrow (s.reg x) (s.reg y))).advance

/-- 8xy7 SUBN Vx, Vy (42_alu.md R139, R143). -/
def execSubn (x y : Reg) (s : State) : Result :=
  .next (s.setResultThenFlag x (s.reg y - s.reg x) (noBorrow (s.reg y) (s.reg x))).advance

/-- 8xy6 SHR Vx (42_alu.md R138, R143): `Vy` takes no part. -/
def execShr (x : Reg) (s : State) : Result :=
  .next (s.setFlagThenResult x (s.reg x >>> 1) (lowBit (s.reg x))).advance

/-- 8xyE SHL Vx (42_alu.md R140, R143): `Vy` takes no part. -/
def execShl (x : Reg) (s : State) : Result :=
  .next (s.setFlagThenResult x (s.reg x <<< 1) (highBit (s.reg x))).advance

/-- Cxkk RND Vx, kk for a given random byte (42_alu.md R141); the draw is used up. -/
def rndWith (rnd : Byte) (x : Reg) (kk : Byte) (s : State) : State :=
  { s.setReg x (rnd &&& kk) with draws := s.draws + 1 }.advance

/-- Cxkk RND Vx, kk (42_alu.md R141) with the free value `rnd` of this step (40_step_cycle.md R102, log entry 2). -/
def execRnd (x : Reg) (kk : Byte) (s : State) : Result := .next (rndWith (Config.freeRnd s.draws) x kk s)

end Sys2Proof.Machine
end

