-- ==== Sys2Proof/Machine/Display.lean ====
section
/-! DEFINITION. Display instructions (44_display.md). -/

namespace Sys2Proof.Machine

/-- 00E0 CLS (44_display.md R180). -/
def execCls (s : State) : Result := .next { s with fb := Vector.replicate 32 0, dirty := true }.advance

/-- The blit of Dxyn: the starting coordinates are not reduced (44_display.md R181). -/
def drawBlit (x y : Reg) (n : Nibble) (s : State) : Blit :=
  Blit.sprite ⟨s.fb, false⟩ (s.mem.readBytes s.base n.toNat) (s.reg x).toNat (s.reg y).toNat

/-- Dxyn DRW Vx, Vy, n (44_display.md R181, R184). -/
def execDrw (x y : Reg) (n : Nibble) (s : State) : Result :=
  if rangeOk s.base n.toNat then
    let p := drawBlit x y n s
    .next ({ s with fb := p.fb, dirty := true }.setReg vf (flagByte p.collision)).advance
  else .next (s.raise .outOfBounds)

end Sys2Proof.Machine
end

