-- ==== Sys2Proof/Machine/IndexMemory.lean ====
section
/-! DEFINITION. Index register and memory instructions (43_index_memory.md). Each bound check comes before any write. -/

namespace Sys2Proof.Machine

/-- Annn LD I, nnn (43_index_memory.md R160). -/
def execLdI (nnn : Addr) (s : State) : Result := .next { s with i := zext16 nnn }.advance

/-- Fx1E ADD I, Vx (43_index_memory.md R161): the integer sum must name an address; VF is not written. -/
def execAddI (x : Reg) (s : State) : Result :=
  if rangeOk (s.base + (s.reg x).toNat) 1 then .next { s with i := s.i + byte16 (s.reg x) }.advance
  else .next (s.raise .outOfBounds)

/-- Fx29 LD F, Vx (43_index_memory.md R162): the font base is 0. -/
def execLdF (x : Reg) (s : State) : Result :=
  match digitOf (s.reg x) with
  | some digit => .next { s with i := BitVec.ofNat 16 (5 * digit.val) }.advance
  | none => .next (s.raise .outOfBounds)

/-- Hundreds, tens and units of a byte, each in a byte of its own (43_index_memory.md R163). -/
def bcd (b : Byte) : List Byte :=
  [BitVec.ofNat 8 (b.toNat / 100), BitVec.ofNat 8 (b.toNat / 10 % 10), BitVec.ofNat 8 (b.toNat % 10)]

/-- Fx33 LD B, Vx (43_index_memory.md R163). -/
def execLdB (x : Reg) (s : State) : Result :=
  if rangeOk s.base 3 then .next { s with mem := s.mem.writeBytes s.base (bcd (s.reg x)) }.advance
  else .next (s.raise .outOfBounds)

/-- Fx55 LD [I], Vx (43_index_memory.md R164): `I` is not changed. -/
def execStRegs (x : Reg) (s : State) : Result :=
  if rangeOk s.base (countUpTo x) then .next { s with mem := s.mem.writeBytes s.base (s.v.upTo x) }.advance
  else .next (s.raise .outOfBounds)

/-- Fx65 LD Vx, [I] (43_index_memory.md R165): `I` is not changed. -/
def execLdRegs (x : Reg) (s : State) : Result :=
  if rangeOk s.base (countUpTo x) then
    .next { s with v := Regs.fill s.v (s.mem.readBytes s.base (countUpTo x)) 0 }.advance
  else .next (s.raise .outOfBounds)

end Sys2Proof.Machine
end

