-- ==== Sys2Proof/Machine/KeysTimers.lean ====
section
/-! DEFINITION. Key and timer instructions (45_keys_timers.md). -/

namespace Sys2Proof.Machine

/-- Ex9E SKP Vx (45_keys_timers.md R190). -/
def execSkp (x : Reg) (s : State) : Result :=
  match digitOf (s.reg x) with
  | some key => .next (s.skipIf s.k[key])
  | none => .next (s.raise .outOfBounds)

/-- ExA1 SKNP Vx (45_keys_timers.md R191). -/
def execSknp (x : Reg) (s : State) : Result :=
  match digitOf (s.reg x) with
  | some key => .next (s.skipIf (!s.k[key]))
  | none => .next (s.raise .outOfBounds)

/-- Fx0A LD Vx, K (45_keys_timers.md R192): with no key down nothing is written, `pc` included, and the step still counts. -/
def execLdVxK (x : Reg) (s : State) : Result :=
  match s.lowestKey with
  | some key => .next (s.setReg x (BitVec.ofNat 8 key.val)).advance
  | none => .next s

/-- Fx07 LD Vx, DT (45_keys_timers.md R193). -/
def execLdVxDt (x : Reg) (s : State) : Result := .next (s.setReg x s.dt).advance

/-- Fx15 LD DT, Vx (45_keys_timers.md R194); the timer update of the same step follows. -/
def execLdDtVx (x : Reg) (s : State) : Result := .next { s with dt := s.reg x }.advance

/-- Fx18 LD ST, Vx (45_keys_timers.md R195); the timer update of the same step follows. -/
def execLdStVx (x : Reg) (s : State) : Result := .next { s with st := s.reg x }.advance

end Sys2Proof.Machine
end

