-- ==== Sys2Proof/Machine/Step.lean ====
section
/-! DEFINITION. The step transaction (40_step_cycle.md R90). -/

namespace Sys2Proof.Machine

/-- `step`: halted check (R91), fetch (R92), decode (R93), execute (R94), timer update (R97) or fault (R98). The step's result is
the fault latch of the state it answers (R99, log entry 1). -/
def step (s : State) : Host.Outcome State Fault Refusal :=
  if s.halted then .next s
  else
    match s.fetch with
    | none => .next (s.raise .outOfBounds)
    | some (hi, lo) =>
      match decodeBytes hi lo with
      | .error _ => .next (s.raise .decodeError)
      | .ok instr =>
        match exec instr (s.latchOpc (wordOfBytes hi lo)) with
        | .next t => .next (s.endStep t)
        | .fault r => .fault r
        | .refused r => .refused r

/-- The state with the instruction word of the opcode table's number `w` stored at `pc`, high byte first (20_memory.md R54),
and the fault latch clear, since a halted machine fetches nothing (40_step_cycle.md R91). Where `pc` cannot be fetched from
(40_step_cycle.md R92) there is no place for it, and the state is left alone. It stands for `loadProgram`
(70_reset_and_hazards.md R242, R243, log entry 6). -/
def State.withFetchWord (s : State) (nbits w : Nat) : State :=
  if rangeOk s.pc.toNat 2 then
    { s with
      mem := s.mem.writeBytes s.pc.toNat [highByte (tableWord nbits w), lowByte (tableWord nbits w)]
      fault := none }
  else s

end Sys2Proof.Machine
end

