-- ==== Sys2Proof/Machine/Transactions.lean ====
section
/-! DEFINITION. The host's transactions beside `step` (70_reset_and_hazards.md R240 to R244), each atomic and between
steps. -/

namespace Sys2Proof.Machine

/-- `initialize()`: the only reset (70_reset_and_hazards.md R240, R241). The random stream goes on where it was, since `rnd` is
no state of the machine (40_step_cycle.md R102, log entry 2). -/
def State.hostReset (s : State) : State := { State.reset with draws := s.draws }

/-- The result of `loadProgram` (70_reset_and_hazards.md R242, 60_exceptions.md R215). -/
inductive LoadResult where
  | ok
  /-- code 5, an empty byte sequence; never latched -/
  | loadError
deriving DecidableEq, Repr

/-- The numeric code of the result (60_exceptions.md R210). -/
def LoadResult.code : LoadResult → Nat
  | .ok => 0
  | .loadError => 5

/-- `loadProgram(bytes)`: at most 3584 bytes copied to 0x200 upward, nothing else (70_reset_and_hazards.md R242). -/
def State.loadProgram (s : State) (bytes : List Byte) : LoadResult × State :=
  match bytes with
  | [] => (.loadError, s)
  | b :: bs => (.ok, { s with mem := s.mem.writeBytes Config.loadAddr ((b :: bs).take Config.maxRom) })

/-- `key_set(i, level)` (70_reset_and_hazards.md R244). -/
def State.keySet (s : State) (key : Reg) (level : Bool) : State := { s with k := s.k.set key level }

/-- `dirty_clear()` (70_reset_and_hazards.md R244). -/
def State.dirtyClear (s : State) : State := { s with dirty := false }

/-- One transaction of the host (70_reset_and_hazards.md R244). Reads of the outputs change nothing and need none. -/
inductive Transaction where
  | hostReset
  | loadProgram (bytes : List Byte)
  | step
  | keySet (key : Reg) (level : Bool)
  | dirtyClear
deriving DecidableEq, Repr

/-- The state after a transaction; a step always answers a next state. -/
def State.perform (s : State) (t : Transaction) : State :=
  match t with
  | .hostReset => s.hostReset
  | .loadProgram bytes => (s.loadProgram bytes).2
  | .step => match Sys2Proof.Machine.step s with
    | .next s' => s'
    | .fault _ => s
    | .refused _ => s
  | .keySet key level => s.keySet key level
  | .dirtyClear => s.dirtyClear

end Sys2Proof.Machine
end

