-- ==== Sys2Proof/Safety.lean ====
section
/-! DEFINITION. What counts as a good state and what an instruction may write, in the terms the claims use: the parts of
the state one by one (10_state.md R20), the invariants (10_state.md R35), the fault table (60_exceptions.md R211 to R216)
and the program-counter table (40_step_cycle.md R95), each written from the spec apart from the meanings. -/

namespace Sys2Proof.Machine

/-! ## Parts of the state and frames -/

/-- One part of the state: every register, stack entry, cell, key and byte of memory is a part of its own (10_state.md R20). -/
inductive Part where
  | reg (x : Reg)
  | pc
  | i
  | stk (j : Reg)
  | sp
  | dt
  | st
  | cell (n : Nat)
  | dirty
  | key (x : Reg)
  | byte (a : Nat)
  | opc
  | fault
  | draws
deriving DecidableEq, Repr

/-- The part reads the same in both states. -/
def Part.same (p : Part) (s t : State) : Prop :=
  match p with
  | .reg x => t.reg x = s.reg x
  | .pc => t.pc = s.pc
  | .i => t.i = s.i
  | .stk j => t.stk[j] = s.stk[j]
  | .sp => t.sp = s.sp
  | .dt => t.dt = s.dt
  | .st => t.st = s.st
  | .cell n => t.fb.cell n = s.fb.cell n
  | .dirty => t.dirty = s.dirty
  | .key x => t.k[x] = s.k[x]
  | .byte a => t.mem.read a = s.mem.read a
  | .opc => t.opc = s.opc
  | .fault => t.fault = s.fault
  | .draws => t.draws = s.draws

/-- The frame: from `s` to `t` every part is unchanged but those `written` names (00_scope.md R10). -/
def FrameExcept (written : Part → Prop) (s t : State) : Prop := ∀ p, ¬ written p → p.same s t

/-- The frame of an instruction that writes `V[x]` and advances `pc`. -/
def writesReg (x : Reg) (p : Part) : Prop := p = .pc ∨ p = .reg x

/-- The frame of an instruction that writes `V[x]`, VF and `pc`. -/
def writesRegAndFlag (x : Reg) (p : Part) : Prop := p = .pc ∨ p = .reg x ∨ p = .reg 15

/-- The frame of an instruction that stores to the addresses `lo` up to but not including `hi`, and advances `pc`. -/
def writesBytes (lo hi : Nat) (p : Part) : Prop := p = .pc ∨ ∃ a, lo ≤ a ∧ a < hi ∧ p = .byte a

/-! ## Invariants of reachable states (10_state.md R35) -/

/-- What every reachable state satisfies (10_state.md R35), with the canonical form of memory. The bound of SP and the
widths of the registers are in the types. -/
structure State.Inv (s : State) : Prop where
  /-- memory keeps its canonical form, and every listed address is below 4096 -/
  mem_wf : s.mem.wf
  /-- `I <= 0x0FFF` -/
  index_le : s.i.toNat ≤ 0x0FFF
  /-- `pc <= 0x10FE` -/
  pc_le : s.pc.toNat ≤ 0x10FE
  /-- every stack entry in use was the `pc` of a fetched 2nnn -/
  stack_le : ∀ j : Reg, j.val < s.sp.val → (s.stk[j]).toNat ≤ 0x0FFE

/-- The states some sequence of transactions leads to from the first `initialize` (70_reset_and_hazards.md R243, R244). -/
inductive Reachable : State → Prop where
  | reset : Reachable State.reset
  | perform (s : State) (t : Transaction) : Reachable s → Reachable (s.perform t)

/-! ## The fault table (60_exceptions.md R211 to R216) -/

/-- The instruction's own fault, from the state at the start of the step (60_exceptions.md R212 to R214). -/
def instrFault (instr : Instr) (s : State) : Option FaultKind :=
  match instr with
  | .ret => if s.sp.val = 0 then some .stackUnderflow else none
  | .call _ => if s.sp.val = 16 then some .stackOverflow else none
  | .drw _ _ n => if s.i.toNat + n.toNat > 4096 then some .outOfBounds else none
  | .addI x => if s.i.toNat + (s.reg x).toNat ≥ 4096 then some .outOfBounds else none
  | .ldF x => if (s.reg x).toNat > 15 then some .outOfBounds else none
  | .ldB _ => if s.i.toNat + 2 ≥ 4096 then some .outOfBounds else none
  | .stRegs x => if s.i.toNat + x.val ≥ 4096 then some .outOfBounds else none
  | .ldRegs x => if s.i.toNat + x.val ≥ 4096 then some .outOfBounds else none
  | .skp x => if (s.reg x).toNat > 15 then some .outOfBounds else none
  | .sknp x => if (s.reg x).toNat > 15 then some .outOfBounds else none
  | .cls | .jp _ | .seImm _ _ | .sneImm _ _ | .seReg _ _ | .ldImm _ _ | .addImm _ _ | .ldReg _ _ | .orReg _ _
  | .andReg _ _ | .xorReg _ _ | .addReg _ _ | .subReg _ _ | .shr _ _ | .subnReg _ _ | .shl _ _ | .sneReg _ _ | .ldI _
  | .jpV0 _ | .rnd _ _ | .ldVxDt _ | .ldVxK _ | .ldDtVx _ | .ldStVx _ => none

/-- The big-endian word at `pc` (40_step_cycle.md R92). -/
def State.wordAtPc (s : State) : Word := wordOfBytes (s.mem.read s.pc.toNat) (s.mem.read (s.pc.toNat + 1))

/-- There is a word to fetch at `pc` (40_step_cycle.md R92). -/
abbrev State.fetchable (s : State) : Prop := s.pc.toNat + 1 < 4096

/-- The fault a step of a machine that is not halted raises, in the order fetch, decode, instruction (60_exceptions.md R216). -/
def stepFault (s : State) : Option FaultKind :=
  if s.pc.toNat + 1 ≥ 4096 then some .outOfBounds
  else
    match decode s.wordAtPc with
    | .error _ => some .decodeError
    | .ok instr => instrFault instr s

/-! ## The program-counter table (40_step_cycle.md R95) -/

/-- `pc` after a skip: the next instruction but one where the condition holds. -/
def pcAfterSkip (s : State) (c : Prop) [Decidable c] : Nat := if c then s.pc.toNat + 4 else s.pc.toNat + 2

/-- `pc` after a step that does not fault, as a plain integer (40_step_cycle.md R95). -/
def pcAfter (instr : Instr) (s : State) : Nat :=
  match instr with
  | .ret => if h : 0 < s.sp.val then (s.stk[s.sp.val - 1]'(by omega)).toNat + 2 else s.pc.toNat
  | .jp nnn => nnn.toNat
  | .call nnn => nnn.toNat
  | .jpV0 nnn => nnn.toNat + (s.reg 0).toNat
  | .seImm x kk => pcAfterSkip s (s.reg x = kk)
  | .sneImm x kk => pcAfterSkip s (s.reg x ≠ kk)
  | .seReg x y => pcAfterSkip s (s.reg x = s.reg y)
  | .sneReg x y => pcAfterSkip s (s.reg x ≠ s.reg y)
  | .skp x => pcAfterSkip s (∃ key : Reg, key.val = (s.reg x).toNat ∧ s.k[key] = true)
  | .sknp x => pcAfterSkip s (∃ key : Reg, key.val = (s.reg x).toNat ∧ s.k[key] = false)
  | .ldVxK _ => if ∃ key : Reg, s.k[key] = true then s.pc.toNat + 2 else s.pc.toNat
  | .cls | .ldImm _ _ | .addImm _ _ | .ldReg _ _ | .orReg _ _ | .andReg _ _ | .xorReg _ _ | .addReg _ _ | .subReg _ _
  | .shr _ _ | .subnReg _ _ | .shl _ _ | .ldI _ | .rnd _ _ | .drw _ _ _ | .ldVxDt _ | .ldDtVx _ | .ldStVx _ | .addI _
  | .ldF _ | .ldB _ | .stRegs _ | .ldRegs _ => s.pc.toNat + 2

/-! ## Who writes what (10_state.md R36) -/

/-- The registers an instruction may write (10_state.md R22, R36). -/
def mayWriteReg (instr : Instr) (r : Reg) : Prop :=
  match instr with
  | .ldImm x _ | .addImm x _ | .ldReg x _ | .orReg x _ | .andReg x _ | .xorReg x _ | .rnd x _ | .ldVxDt x | .ldVxK x => r = x
  | .addReg x _ | .subReg x _ | .shr x _ | .subnReg x _ | .shl x _ => r = x ∨ r = 15
  | .drw _ _ _ => r = 15
  | .ldRegs x => r ≤ x
  | .cls | .ret | .jp _ | .call _ | .seImm _ _ | .sneImm _ _ | .seReg _ _ | .sneReg _ _ | .ldI _ | .jpV0 _ | .skp _ | .sknp _
  | .ldDtVx _ | .ldStVx _ | .addI _ | .ldF _ | .ldB _ | .stRegs _ => False

/-- The parts a step of an instruction from the state `s` may write: the instruction's own column of 10_state.md R36, with `pc`,
OPC, the fault latch and the two timers, which every step may change (40_step_cycle.md R97). A push may write the entry at
`SP` (10_state.md R25), Fx33 and Fx55 the bytes they store to (20_memory.md R56). -/
def mayWrite (instr : Instr) (s : State) (p : Part) : Prop :=
  match p with
  | .reg r => mayWriteReg instr r
  | .i => (∃ nnn, instr = .ldI nnn) ∨ (∃ x, instr = .addI x) ∨ (∃ x, instr = .ldF x)
  | .stk j => (∃ nnn, instr = .call nnn) ∧ j.val = s.sp.val
  | .sp => instr = .ret ∨ ∃ nnn, instr = .call nnn
  | .cell _ => instr = .cls ∨ ∃ x y n, instr = .drw x y n
  | .dirty => instr = .cls ∨ ∃ x y n, instr = .drw x y n
  | .byte a => s.i.toNat ≤ a ∧
    (((∃ x, instr = .ldB x) ∧ a < s.i.toNat + 3) ∨ ∃ x, instr = .stRegs x ∧ a < s.i.toNat + x.val + 1)
  | .key _ => False
  | .draws => ∃ x kk, instr = .rnd x kk
  | .pc | .opc | .fault | .dt | .st => True

/-! ## The picture of a sprite (44_display.md R181, R183) -/

/-- The sprite that starts at address `base`, `n` rows high, with its top left corner at (vx, vy), has a set bit at column
`cx` and row `cy`: row r comes from address `base + r`, and bit 7 is the leftmost column. -/
def spriteBit (m : Memory) (base n vx vy cx cy : Nat) : Bool :=
  decide (vx ≤ cx) && decide (cx < vx + 8) && decide (vy ≤ cy) && decide (cy < vy + n) &&
    (m.read (base + (cy - vy))).getLsbD (7 - (cx - vx))

end Sys2Proof.Machine
end

