-- ==== Sys2Proof/Certificates/Slice0/Obligations.lean ====
section
/-! DEFINITION. The statements for the provers. Every sum on `pc` is stated on plain integers, for states whose `pc` can be
fetched from, since a step executes in no other (40_step_cycle.md R92). -/

open Sys2Proof Sys2Proof.Machine

/-! ## Encoding (30_encoding.md) -/

/-- Words written out bit by bit from 30_encoding.md R72 decode to the instruction they stand for, in every format. -/
def Obligations.WrittenOutWordsDecode : Prop :=
  decodeBytes 0xD1 0x25 = .ok (.drw 1 2 5) ∧ decodeBytes 0x8A 0xB4 = .ok (.addReg 10 11) ∧
  decodeBytes 0xF3 0x0A = .ok (.ldVxK 3) ∧ decodeBytes 0x00 0xEE = .ok .ret ∧ decodeBytes 0x6C 0x00 = .ok (.ldImm 12 0) ∧
  decodeBytes 0xA1 0x23 = .ok (.ldI 0x123) ∧ decodeBytes 0xE1 0x9E = .ok (.skp 1) ∧ decodeBytes 0xFF 0x65 = .ok (.ldRegs 15)

/-- Decoding an encoded instruction gives it back, every operand at every value (30_encoding.md R71 to R75). -/
def Obligations.DecodeOfEncode : Prop := ∀ instr : Instr, decode (encode instr) = .ok instr

/-- Each legal word has one meaning, and no bit of it is dropped: it is the word of the instruction it decodes to. -/
def Obligations.EncodeOfDecode : Prop := ∀ (op : Word) (instr : Instr), decode op = .ok instr → encode instr = op

/-- The decoder is the opcode map: a word decodes to an instruction exactly when a row of the map covers it, and then to one of
that row's mnemonic. The exact match on every fixed bit is the spec's decision D3. -/
def Obligations.DecoderFollowsTheOpcodeMap : Prop :=
  ∀ op : Word,
    (∀ instr, decode op = .ok instr → ∃ row ∈ opcodeMap, row.mnemonic = instr.mnemonic ∧ op &&& row.mask = row.value) ∧
    (∀ row ∈ opcodeMap, op &&& row.mask = row.value → ∃ instr, decode op = .ok instr ∧ instr.mnemonic = row.mnemonic)

/-- The rows of the opcode map are disjoint, so that at most one row covers a word. -/
def Obligations.OpcodeRowsAreDisjoint : Prop :=
  ∀ (op : Word), ∀ r ∈ opcodeMap, ∀ q ∈ opcodeMap, op &&& r.mask = r.value → op &&& q.mask = q.value → r = q

/-- The illegal words are exactly those of the table by family (30_encoding.md section 3). That they are fatal is the spec's
decision D1. -/
def Obligations.IllegalWordsByFamily : Prop :=
  ∀ op : Word, (∃ r, decode op = .error r) ↔
    (op.toNat / 4096 = 0 ∧ op.toNat ≠ 0x00E0 ∧ op.toNat ≠ 0x00EE) ∨
    (op.toNat / 4096 = 5 ∧ op.toNat % 16 ≠ 0) ∨
    (op.toNat / 4096 = 8 ∧ op.toNat % 16 ∈ [8, 9, 10, 11, 12, 13, 15]) ∨
    (op.toNat / 4096 = 9 ∧ op.toNat % 16 ≠ 0) ∨
    (op.toNat / 4096 = 14 ∧ op.toNat % 256 ∉ [0x9E, 0xA1]) ∨
    (op.toNat / 4096 = 15 ∧ op.toNat % 256 ∉ [0x07, 0x0A, 0x15, 0x18, 0x1E, 0x29, 0x33, 0x55, 0x65])

/-! ## The step (40_step_cycle.md) -/

/-- A step of a machine that is not halted runs the instruction at `pc`: OPC takes the word, the instruction executes, and then
either both timers tick or, where the instruction raised a fault, only the latch is written. That a fault leaves no partial effect
is the spec's decision D13, and that OPC too keeps its old value there is the model's choice (log entry 4). -/
def Obligations.StepRunsTheDecodedInstruction : Prop :=
  ∀ (s t : State) (instr : Instr), s.fault = none → s.fetchable → decode s.wordAtPc = .ok instr →
    exec instr { s with opc := s.wordAtPc } = .next t →
    (t.fault = none → step s = .next { t with
      dt := if t.dt = 0 then 0 else t.dt - 1
      st := if t.st = 0 then 0 else t.st - 1 }) ∧
    (∀ kind, t.fault = some kind → step s = .next { s with fault := some kind })

/-- The halted machine: every further step changes nothing. The latch is the spec's decision D14. -/
def Obligations.HaltedStepChangesNothing : Prop := ∀ s : State, s.fault ≠ none → step s = .next s

/-- The fetch reads the big-endian word at `pc`, or takes OutOfBounds where `pc + 1` is no address. That nothing but the latch changes
there is the spec's decision D13 (40_step_cycle.md section 6), and for OPC the model's choice (log entry 4). -/
def Obligations.FetchReadsTheWordOrFaults : Prop :=
  ∀ s : State,
    (s.fault = none → s.pc.toNat + 1 ≥ 4096 → step s = .next { s with fault := some .outOfBounds }) ∧
    (s.pc.toNat + 1 < 4096 → ∃ hi lo, s.fetch = some (hi, lo) ∧
      (wordOfBytes hi lo).toNat = (s.mem.read s.pc.toNat).toNat * 256 + (s.mem.read (s.pc.toNat + 1)).toNat)

/-- DecodeError is raised exactly when there is a word to fetch and it matches no row of the opcode map, whatever else the state
holds. That such a word is fatal is the spec's decision D1. -/
def Obligations.DecodeErrorExactlyOnIllegalWords : Prop :=
  ∀ s t : State, s.fault = none → step s = .next t →
    (t.fault = some .decodeError ↔ s.fetchable ∧ legalWord s.wordAtPc = false)

/-- A step that faults changes the latch and nothing else: no register, byte, cell, stack entry, timer, DIRTY or `pc`, and (the
model's choice, log entry 4) not OPC. That no partial effect arises is the spec's decision D13. -/
def Obligations.FaultingStepWritesOnlyTheLatch : Prop :=
  ∀ (s t : State) (kind : FaultKind), s.fault = none → step s = .next t → t.fault = some kind →
    t = { s with fault := some kind }

/-- A step always answers a next state, and the latch after it holds exactly what the fault table says: fetch first, then decode,
then the instruction's own fault. That an illegal word is fatal is the spec's decision D1, the key-number faults are its decision
D11, and the order is its decision D32. -/
def Obligations.StepFaultsExactlyAsTheTableSays : Prop :=
  ∀ s : State, s.fault = none → ∃ t, step s = .next t ∧ t.fault = stepFault s

/-- StackUnderflow is raised exactly by 00EE with `SP` = 0, StackOverflow exactly by 2nnn with `SP` = 16. -/
def Obligations.StackFaultsExactlyAtTheEnds : Prop :=
  ∀ s t : State, s.fault = none → step s = .next t →
    (t.fault = some .stackUnderflow ↔ s.fetchable ∧ decode s.wordAtPc = .ok .ret ∧ s.sp.val = 0) ∧
    (t.fault = some .stackOverflow ↔ s.fetchable ∧ (∃ nnn, decode s.wordAtPc = .ok (.call nnn)) ∧ s.sp.val = 16)

/-- Both timers count one down, never below 0, in every step that does not fault, a waiting Fx0A included, after the instruction's
own write: Fx15 and Fx18 set what is then counted down. The waiting step's tick is the spec's decision D22. -/
def Obligations.TimersTickOncePerStep : Prop :=
  ∀ (s t : State) (instr : Instr), s.fault = none → s.fetchable → decode s.wordAtPc = .ok instr → step s = .next t →
    t.fault = none →
    (∀ x, instr = .ldDtVx x → t.dt.toNat = (s.reg x).toNat - 1) ∧
    ((∀ x, instr ≠ .ldDtVx x) → t.dt.toNat = s.dt.toNat - 1) ∧
    (∀ x, instr = .ldStVx x → t.st.toNat = (s.reg x).toNat - 1) ∧
    ((∀ x, instr ≠ .ldStVx x) → t.st.toNat = s.st.toNat - 1)

/-- `pc` after every step is what the table says, as a plain integer, and unchanged where the step faults, be it in the fetch, the
decode or the instruction. What 00EE adds and that Bnnn is not reduced are the spec's decisions D4 and D28. -/
def Obligations.PcFollowsTheTable : Prop :=
  ∀ s t : State, s.Inv → s.fault = none → step s = .next t →
    (t.fault ≠ none → t.pc = s.pc) ∧
    (∀ instr, s.fetchable → decode s.wordAtPc = .ok instr → t.fault = none → t.pc.toNat = pcAfter instr s)

/-- Each part of the state has only its own writers: whatever an instruction's row of the access table does not let it write is
unchanged by its step. Fx33 and Fx55 may write only the bytes they store to, 2nnn only the entry at `SP`. -/
def Obligations.EachPartHasOnlyItsWriters : Prop :=
  ∀ (s t : State) (instr : Instr), s.fault = none → s.fetchable → decode s.wordAtPc = .ok instr → step s = .next t →
    FrameExcept (mayWrite instr s) s t

/-- DIRTY after a step that does not fault is 1 for 00E0 and Dxyn, whether or not a cell changed, and unchanged for every other
instruction. The unconditional reading is the spec's decision D10. -/
def Obligations.DirtyIsSetExactlyByTheDisplayInstructions : Prop :=
  ∀ (s t : State) (instr : Instr), s.fault = none → s.fetchable → decode s.wordAtPc = .ok instr → step s = .next t →
    t.fault = none →
    ((instr = .cls ∨ ∃ x y n, instr = .drw x y n) → t.dirty = true) ∧
    (¬ (instr = .cls ∨ ∃ x y n, instr = .drw x y n) → t.dirty = s.dirty)

/-- Nothing but Cxkk depends on the random input: from a state with another place in the random stream, every other instruction does
the same. The stream is the model's (log entry 2). -/
def Obligations.OnlyRndReadsTheRandomInput : Prop :=
  ∀ (s t : State) (instr : Instr) (n : Nat), (∀ x kk, instr ≠ .rnd x kk) → exec instr s = .next t →
    exec instr { s with draws := n } = .next { t with draws := n }

/-- A jump to its own address leaves all state but the timers (and OPC, which holds the jump's word) as it was. -/
def Obligations.SelfJumpLeavesAllButTheTimers : Prop :=
  ∀ (s : State) (nnn : Addr), s.fault = none → s.fetchable → decode s.wordAtPc = .ok (.jp nnn) → nnn.toNat = s.pc.toNat →
    ∃ t, step s = .next t ∧ FrameExcept (fun p => p = .dt ∨ p = .st ∨ p = .opc) s t

/-! ## Control transfer (41_flow.md) -/

/-- The word 00EE is the return. It takes `pc` two past the newest stack entry and frees it, the entry staying in the stack; with an empty stack it takes
StackUnderflow. The addition of 2 is the spec's decision D4. -/
def Obligations.ReturnPopsTheStack : Prop :=
  decode 0x00EE = .ok .ret ∧
  ∀ s : State,
    (s.sp.val = 0 → exec .ret s = .next { s with fault := some .stackUnderflow }) ∧
    (∀ j : Reg, s.sp.val = j.val + 1 → (s.stk[j]).toNat ≤ 0x0FFE →
      ∃ t, exec .ret s = .next t ∧ t.pc.toNat = (s.stk[j]).toNat + 2 ∧ t.sp.val = j.val ∧
        FrameExcept (fun p => p = .pc ∨ p = .sp) s t)

/-- 1nnn takes `pc` to `nnn` and writes nothing else; it never faults. -/
def Obligations.JumpGoesToItsAddress : Prop :=
  ∀ (nnn : Addr) (s : State),
    decode (BitVec.ofNat 16 (0x1000 + nnn.toNat)) = .ok (.jp nnn) ∧
    ∃ t, exec (.jp nnn) s = .next t ∧ t.pc.toNat = nnn.toNat ∧ FrameExcept (fun p => p = .pc) s t

/-- 2nnn pushes its own address and takes `pc` to `nnn`; with a full stack it takes StackOverflow. What is pushed is the spec's
decision D4. -/
def Obligations.CallPushesItsOwnAddress : Prop :=
  ∀ (nnn : Addr) (s : State),
    decode (BitVec.ofNat 16 (0x2000 + nnn.toNat)) = .ok (.call nnn) ∧
    (s.sp.val = 16 → exec (.call nnn) s = .next { s with fault := some .stackOverflow }) ∧
    (∀ j : Reg, s.sp.val = j.val →
      ∃ t, exec (.call nnn) s = .next t ∧ t.stk[j] = s.pc ∧ t.sp.val = j.val + 1 ∧ t.pc.toNat = nnn.toNat ∧
        FrameExcept (fun p => p = .pc ∨ p = .sp ∨ p = .stk j) s t)

/-- 3xkk skips when `V[x]` equals `kk`, 4xkk when it differs, and neither writes anything but `pc`. -/
def Obligations.SkipsOnImmediates : Prop :=
  ∀ (x : Reg) (kk : Byte) (s : State),
    decode (BitVec.ofNat 16 (0x3000 + 256 * x.val + kk.toNat)) = .ok (.seImm x kk) ∧
    decode (BitVec.ofNat 16 (0x4000 + 256 * x.val + kk.toNat)) = .ok (.sneImm x kk) ∧
    (s.fetchable →
      (∃ t, exec (.seImm x kk) s = .next t ∧ t.pc.toNat = (if s.reg x = kk then s.pc.toNat + 4 else s.pc.toNat + 2) ∧
        FrameExcept (fun p => p = .pc) s t) ∧
      (∃ t, exec (.sneImm x kk) s = .next t ∧ t.pc.toNat = (if s.reg x = kk then s.pc.toNat + 2 else s.pc.toNat + 4) ∧
        FrameExcept (fun p => p = .pc) s t))

/-- 5xy0 skips when `V[x]` equals `V[y]`, 9xy0 when they differ; another low nibble is no instruction. -/
def Obligations.SkipsOnRegisters : Prop :=
  ∀ (x y : Reg) (s : State),
    decode (BitVec.ofNat 16 (0x5000 + 256 * x.val + 16 * y.val)) = .ok (.seReg x y) ∧
    decode (BitVec.ofNat 16 (0x9000 + 256 * x.val + 16 * y.val)) = .ok (.sneReg x y) ∧
    (∀ n : Nat, 0 < n → n < 16 →
      decode (BitVec.ofNat 16 (0x5000 + 256 * x.val + 16 * y.val + n)) = .error .family5 ∧
      decode (BitVec.ofNat 16 (0x9000 + 256 * x.val + 16 * y.val + n)) = .error .family9) ∧
    (s.fetchable →
      (∃ t, exec (.seReg x y) s = .next t ∧
        t.pc.toNat = (if s.reg x = s.reg y then s.pc.toNat + 4 else s.pc.toNat + 2) ∧ FrameExcept (fun p => p = .pc) s t) ∧
      (∃ t, exec (.sneReg x y) s = .next t ∧
        t.pc.toNat = (if s.reg x = s.reg y then s.pc.toNat + 2 else s.pc.toNat + 4) ∧ FrameExcept (fun p => p = .pc) s t))

/-- Bnnn takes `pc` to the integer sum of `nnn` and `V[0]`, not reduced to 12 bits (the spec's decision D28). -/
def Obligations.JumpWithOffsetIsNotReduced : Prop :=
  ∀ (nnn : Addr) (s : State),
    decode (BitVec.ofNat 16 (0xB000 + nnn.toNat)) = .ok (.jpV0 nnn) ∧
    ∃ t, exec (.jpV0 nnn) s = .next t ∧ t.pc.toNat = nnn.toNat + (s.reg 0).toNat ∧ FrameExcept (fun p => p = .pc) s t

/-- A call followed by a return leaves `pc` two past the call, `SP` as it was, and all else unchanged but the stale stack entry. -/
def Obligations.CallThenReturnComesBack : Prop :=
  ∀ (nnn : Addr) (s t u : State) (j : Reg), s.fetchable → s.sp.val = j.val → exec (.call nnn) s = .next t →
    exec .ret t = .next u →
    u.pc.toNat = s.pc.toNat + 2 ∧ u.sp = s.sp ∧ FrameExcept (fun p => p = .pc ∨ p = .stk j) s u

/-! ## Register and ALU instructions (42_alu.md) -/

/-- 6xkk loads `kk`; 7xkk adds `kk` modulo 256 and writes no flag. -/
def Obligations.LoadAndAddImmediate : Prop :=
  ∀ (x : Reg) (kk : Byte) (s : State),
    decode (BitVec.ofNat 16 (0x6000 + 256 * x.val + kk.toNat)) = .ok (.ldImm x kk) ∧
    decode (BitVec.ofNat 16 (0x7000 + 256 * x.val + kk.toNat)) = .ok (.addImm x kk) ∧
    (s.fetchable →
      (∃ t, exec (.ldImm x kk) s = .next t ∧ t.reg x = kk ∧ t.pc.toNat = s.pc.toNat + 2 ∧
        FrameExcept (writesReg x) s t) ∧
      (∃ t, exec (.addImm x kk) s = .next t ∧ (t.reg x).toNat = ((s.reg x).toNat + kk.toNat) % 256 ∧
        t.pc.toNat = s.pc.toNat + 2 ∧ FrameExcept (writesReg x) s t))

/-- 8xy0 to 8xy3 copy, OR, AND and XOR bit by bit; VF is written only as the destination. -/
def Obligations.CopyAndLogic : Prop :=
  ∀ (x y : Reg) (s : State),
    decode (BitVec.ofNat 16 (0x8000 + 256 * x.val + 16 * y.val)) = .ok (.ldReg x y) ∧
    decode (BitVec.ofNat 16 (0x8001 + 256 * x.val + 16 * y.val)) = .ok (.orReg x y) ∧
    decode (BitVec.ofNat 16 (0x8002 + 256 * x.val + 16 * y.val)) = .ok (.andReg x y) ∧
    decode (BitVec.ofNat 16 (0x8003 + 256 * x.val + 16 * y.val)) = .ok (.xorReg x y) ∧
    (s.fetchable →
      (∃ t, exec (.ldReg x y) s = .next t ∧ t.reg x = s.reg y ∧ t.pc.toNat = s.pc.toNat + 2 ∧
        FrameExcept (writesReg x) s t) ∧
      (∃ t, exec (.orReg x y) s = .next t ∧
        (∀ b, b < 8 → (t.reg x).getLsbD b = ((s.reg x).getLsbD b || (s.reg y).getLsbD b)) ∧
        t.pc.toNat = s.pc.toNat + 2 ∧ FrameExcept (writesReg x) s t) ∧
      (∃ t, exec (.andReg x y) s = .next t ∧
        (∀ b, b < 8 → (t.reg x).getLsbD b = ((s.reg x).getLsbD b && (s.reg y).getLsbD b)) ∧
        t.pc.toNat = s.pc.toNat + 2 ∧ FrameExcept (writesReg x) s t) ∧
      (∃ t, exec (.xorReg x y) s = .next t ∧
        (∀ b, b < 8 → (t.reg x).getLsbD b = ((s.reg x).getLsbD b ^^ (s.reg y).getLsbD b)) ∧
        t.pc.toNat = s.pc.toNat + 2 ∧ FrameExcept (writesReg x) s t))

/-- 8xy4 adds modulo 256 and leaves the carry in VF, also where `x` is 15 (the spec's decision D5). -/
def Obligations.AddRegistersWithCarry : Prop :=
  ∀ (x y : Reg) (s : State),
    decode (BitVec.ofNat 16 (0x8004 + 256 * x.val + 16 * y.val)) = .ok (.addReg x y) ∧
    (s.fetchable →
      ∃ t, exec (.addReg x y) s = .next t ∧
        (x ≠ 15 → (t.reg x).toNat = ((s.reg x).toNat + (s.reg y).toNat) % 256) ∧
        (t.reg 15).toNat = (if (s.reg x).toNat + (s.reg y).toNat > 255 then 1 else 0) ∧
        t.pc.toNat = s.pc.toNat + 2 ∧ FrameExcept (writesRegAndFlag x) s t)

/-- 8xy5 and 8xy7 subtract modulo 256, each way round, and leave the no-borrow flag in VF, 1 at equality, also where `x` is 15 (the
spec's decision D5). -/
def Obligations.SubtractRegistersWithNoBorrow : Prop :=
  ∀ (x y : Reg) (s : State),
    decode (BitVec.ofNat 16 (0x8005 + 256 * x.val + 16 * y.val)) = .ok (.subReg x y) ∧
    decode (BitVec.ofNat 16 (0x8007 + 256 * x.val + 16 * y.val)) = .ok (.subnReg x y) ∧
    (s.fetchable →
      (∃ t, exec (.subReg x y) s = .next t ∧
        (x ≠ 15 → ((t.reg x).toNat : Int) = ((s.reg x).toNat - (s.reg y).toNat : Int) % 256) ∧
        (t.reg 15).toNat = (if (s.reg x).toNat ≥ (s.reg y).toNat then 1 else 0) ∧
        t.pc.toNat = s.pc.toNat + 2 ∧ FrameExcept (writesRegAndFlag x) s t) ∧
      (∃ t, exec (.subnReg x y) s = .next t ∧
        (x ≠ 15 → ((t.reg x).toNat : Int) = ((s.reg y).toNat - (s.reg x).toNat : Int) % 256) ∧
        (t.reg 15).toNat = (if (s.reg y).toNat ≥ (s.reg x).toNat then 1 else 0) ∧
        t.pc.toNat = s.pc.toNat + 2 ∧ FrameExcept (writesRegAndFlag x) s t))

/-- 8xy6 and 8xyE shift `V[x]` by one and leave the bit shifted out in VF; where `x` is 15 the shifted value stays (the spec's
decision D5). The field `y`, whatever it is, takes no part. -/
def Obligations.ShiftsByOne : Prop :=
  ∀ (x y : Reg) (s : State),
    decode (BitVec.ofNat 16 (0x8006 + 256 * x.val + 16 * y.val)) = .ok (.shr x y) ∧
    decode (BitVec.ofNat 16 (0x800E + 256 * x.val + 16 * y.val)) = .ok (.shl x y) ∧
    (s.fetchable →
      (∃ t, exec (.shr x y) s = .next t ∧ (t.reg x).toNat = (s.reg x).toNat / 2 ∧
        (x ≠ 15 → (t.reg 15).toNat = (s.reg x).toNat % 2) ∧
        t.pc.toNat = s.pc.toNat + 2 ∧ FrameExcept (writesRegAndFlag x) s t) ∧
      (∃ t, exec (.shl x y) s = .next t ∧ (t.reg x).toNat = (s.reg x).toNat * 2 % 256 ∧
        (x ≠ 15 → (t.reg 15).toNat = (s.reg x).toNat / 128) ∧
        t.pc.toNat = s.pc.toNat + 2 ∧ FrameExcept (writesRegAndFlag x) s t))

/-- Cxkk masks the random byte of this step, whatever it is, with `kk`, so that no bit outside the mask is set. The stream of random
bytes is the model's free value (log entry 2). -/
def Obligations.RandomByteIsMasked : Prop :=
  ∀ (x : Reg) (kk : Byte) (s : State),
    decode (BitVec.ofNat 16 (0xC000 + 256 * x.val + kk.toNat)) = .ok (.rnd x kk) ∧
    (s.fetchable →
      ∃ t, exec (.rnd x kk) s = .next t ∧
        (∀ b, b < 8 → (t.reg x).getLsbD b = ((Config.freeRnd s.draws).getLsbD b && kk.getLsbD b)) ∧
        t.reg x &&& ~~~kk = 0 ∧ t.draws = s.draws + 1 ∧
        t.pc.toNat = s.pc.toNat + 2 ∧ FrameExcept (fun p => writesReg x p ∨ p = .draws) s t)

/-! ## Index register and memory (43_index_memory.md) -/

/-- Annn loads `I` with `nnn`, zero-extended. -/
def Obligations.LoadIndex : Prop :=
  ∀ (nnn : Addr) (s : State),
    decode (BitVec.ofNat 16 (0xA000 + nnn.toNat)) = .ok (.ldI nnn) ∧
    (s.fetchable → ∃ t, exec (.ldI nnn) s = .next t ∧ t.i.toNat = nnn.toNat ∧ t.pc.toNat = s.pc.toNat + 2 ∧
      FrameExcept (fun p => p = .pc ∨ p = .i) s t)

/-- Fx1E adds `V[x]` to `I` on integers, VF untouched, or takes OutOfBounds where the sum is 4096 or more. -/
def Obligations.AddToIndex : Prop :=
  ∀ (x : Reg) (s : State),
    decode (BitVec.ofNat 16 (0xF01E + 256 * x.val)) = .ok (.addI x) ∧
    (s.fetchable → s.i.toNat + (s.reg x).toNat < 4096 →
      ∃ t, exec (.addI x) s = .next t ∧ t.i.toNat = s.i.toNat + (s.reg x).toNat ∧ t.pc.toNat = s.pc.toNat + 2 ∧
        FrameExcept (fun p => p = .pc ∨ p = .i) s t) ∧
    (s.i.toNat + (s.reg x).toNat ≥ 4096 → exec (.addI x) s = .next { s with fault := some .outOfBounds })

/-- Fx29 points `I` at the glyph of the digit in `V[x]`, or takes OutOfBounds where that is above 15. -/
def Obligations.PointAtGlyph : Prop :=
  ∀ (x : Reg) (s : State),
    decode (BitVec.ofNat 16 (0xF029 + 256 * x.val)) = .ok (.ldF x) ∧
    (s.fetchable → (s.reg x).toNat ≤ 15 →
      ∃ t, exec (.ldF x) s = .next t ∧ t.i.toNat = 5 * (s.reg x).toNat ∧ t.pc.toNat = s.pc.toNat + 2 ∧
        FrameExcept (fun p => p = .pc ∨ p = .i) s t) ∧
    ((s.reg x).toNat > 15 → exec (.ldF x) s = .next { s with fault := some .outOfBounds })

/-- Fx33 stores the hundreds, tens and units digits of `V[x]` at `I`, `I + 1` and `I + 2`, or takes OutOfBounds, no byte written,
where `I + 2` is no address. -/
def Obligations.StoreDecimalDigits : Prop :=
  ∀ (x : Reg) (s : State),
    decode (BitVec.ofNat 16 (0xF033 + 256 * x.val)) = .ok (.ldB x) ∧
    (s.mem.wf → s.fetchable → s.i.toNat + 2 < 4096 →
      ∃ t, exec (.ldB x) s = .next t ∧
        (t.mem.read s.i.toNat).toNat = (s.reg x).toNat / 100 ∧
        (t.mem.read (s.i.toNat + 1)).toNat = (s.reg x).toNat / 10 % 10 ∧
        (t.mem.read (s.i.toNat + 2)).toNat = (s.reg x).toNat % 10 ∧
        t.pc.toNat = s.pc.toNat + 2 ∧ FrameExcept (writesBytes s.i.toNat (s.i.toNat + 3)) s t) ∧
    (s.i.toNat + 2 ≥ 4096 → exec (.ldB x) s = .next { s with fault := some .outOfBounds })

/-- Fx55 stores `V[0]` to `V[x]` at `I` to `I + x`, `I` unchanged, or takes OutOfBounds, no byte written, where `I + x` is no
address. -/
def Obligations.StoreRegisters : Prop :=
  ∀ (x : Reg) (s : State),
    decode (BitVec.ofNat 16 (0xF055 + 256 * x.val)) = .ok (.stRegs x) ∧
    (s.mem.wf → s.fetchable → s.i.toNat + x.val < 4096 →
      ∃ t, exec (.stRegs x) s = .next t ∧
        (∀ j : Reg, j ≤ x → t.mem.read (s.i.toNat + j.val) = s.reg j) ∧
        t.pc.toNat = s.pc.toNat + 2 ∧ FrameExcept (writesBytes s.i.toNat (s.i.toNat + x.val + 1)) s t) ∧
    (s.i.toNat + x.val ≥ 4096 → exec (.stRegs x) s = .next { s with fault := some .outOfBounds })

/-- Fx65 loads `V[0]` to `V[x]` from `I` to `I + x`, `I` and the registers above unchanged, or takes OutOfBounds, no register written,
where `I + x` is no address; and a block stored by Fx55 and loaded back by Fx65, whatever the registers were set to between, is the
block that was stored. -/
def Obligations.LoadRegisters : Prop :=
  ∀ (x : Reg) (s : State),
    decode (BitVec.ofNat 16 (0xF065 + 256 * x.val)) = .ok (.ldRegs x) ∧
    (s.fetchable → s.i.toNat + x.val < 4096 →
      ∃ t, exec (.ldRegs x) s = .next t ∧
        (∀ j : Reg, j ≤ x → t.reg j = s.mem.read (s.i.toNat + j.val)) ∧
        t.pc.toNat = s.pc.toNat + 2 ∧ FrameExcept (fun p => p = .pc ∨ ∃ j : Reg, j ≤ x ∧ p = .reg j) s t) ∧
    (s.i.toNat + x.val ≥ 4096 → exec (.ldRegs x) s = .next { s with fault := some .outOfBounds }) ∧
    (∀ (t u : State) (v : Regs), s.mem.wf → s.i.toNat + x.val < 4096 → exec (.stRegs x) s = .next t →
      exec (.ldRegs x) { t with v := v } = .next u → ∀ j : Reg, j ≤ x → u.reg j = s.reg j)

/-- A block stored over the next instruction is what the next fetch reads. -/
def Obligations.StoreIsSeenByTheNextFetch : Prop :=
  ∀ (x : Reg) (s t : State), s.mem.wf → s.fetchable → 1 ≤ x.val → s.i.toNat = s.pc.toNat + 2 → s.i.toNat + x.val < 4096 →
    exec (.stRegs x) s = .next t → t.wordAtPc = wordOfBytes (s.reg 0) (s.reg 1)

/-! ## Display (44_display.md) -/

/-- 00E0 clears every cell and sets DIRTY, VF untouched. -/
def Obligations.ClearScreen : Prop :=
  decode 0x00E0 = .ok .cls ∧
  ∀ s : State, s.fetchable →
    ∃ t, exec .cls s = .next t ∧ (∀ n, n < 2048 → t.fb.cell n = false) ∧ t.dirty = true ∧ t.pc.toNat = s.pc.toNat + 2 ∧
      FrameExcept (fun p => p = .pc ∨ p = .dirty ∨ ∃ n, p = .cell n) s t

/-- Dxyn flips cell 64*cy + cx exactly where the sprite has a set bit at (cx, cy), the coordinates not reduced (the spec's decision
D6), VF says whether a flipped cell was set, 0 otherwise (decision D9), and DIRTY is set; it takes OutOfBounds where the sprite's
bytes pass the end of memory. The bit order and the cell order are the spec's decisions D7 and D8. -/
def Obligations.DrawSprite : Prop :=
  ∀ (x y : Reg) (n : Nibble) (s : State),
    decode (BitVec.ofNat 16 (0xD000 + 256 * x.val + 16 * y.val + n.toNat)) = .ok (.drw x y n) ∧
    (s.fetchable → s.i.toNat + n.toNat ≤ 4096 →
      ∃ t, exec (.drw x y n) s = .next t ∧
        (∀ cx cy, cx < 64 → cy < 32 → t.fb.cell (64 * cy + cx) = (s.fb.cell (64 * cy + cx) ^^
          spriteBit s.mem s.i.toNat n.toNat (s.reg x).toNat (s.reg y).toNat cx cy)) ∧
        ((∃ cx cy, cx < 64 ∧ cy < 32 ∧ s.fb.cell (64 * cy + cx) = true ∧
          spriteBit s.mem s.i.toNat n.toNat (s.reg x).toNat (s.reg y).toNat cx cy = true) → t.reg 15 = 1) ∧
        (¬ (∃ cx cy, cx < 64 ∧ cy < 32 ∧ s.fb.cell (64 * cy + cx) = true ∧
          spriteBit s.mem s.i.toNat n.toNat (s.reg x).toNat (s.reg y).toNat cx cy = true) → t.reg 15 = 0) ∧
        t.dirty = true ∧ t.pc.toNat = s.pc.toNat + 2 ∧
        FrameExcept (fun p => p = .pc ∨ p = .reg 15 ∨ p = .dirty ∨ ∃ m, p = .cell m) s t) ∧
    (s.i.toNat + n.toNat > 4096 → exec (.drw x y n) s = .next { s with fault := some .outOfBounds })

/-- The same sprite drawn twice at the same place restores the framebuffer, and the second draw collides exactly when some bit of the
sprite turned a cell on the first time. -/
def Obligations.DrawTwiceRestores : Prop :=
  ∀ (x y : Reg) (n : Nibble) (s t u : State), x ≠ 15 → y ≠ 15 → s.i.toNat + n.toNat ≤ 4096 →
    exec (.drw x y n) s = .next t → exec (.drw x y n) t = .next u →
    u.fb = s.fb ∧
    (u.reg 15 = 1 ↔ ∃ cx cy, cx < 64 ∧ cy < 32 ∧ s.fb.cell (64 * cy + cx) = false ∧
      spriteBit s.mem s.i.toNat n.toNat (s.reg x).toNat (s.reg y).toNat cx cy = true)

/-! ## Keys and timers (45_keys_timers.md) -/

/-- Ex9E skips when the key numbered by `V[x]` is pressed, ExA1 when it is not; a number above 15 is OutOfBounds (the spec's decision
D11). -/
def Obligations.SkipsOnKeys : Prop :=
  ∀ (x : Reg) (s : State),
    decode (BitVec.ofNat 16 (0xE09E + 256 * x.val)) = .ok (.skp x) ∧
    decode (BitVec.ofNat 16 (0xE0A1 + 256 * x.val)) = .ok (.sknp x) ∧
    (∀ key : Reg, s.fetchable → (s.reg x).toNat = key.val →
      (∃ t, exec (.skp x) s = .next t ∧ t.pc.toNat = (if s.k[key] = true then s.pc.toNat + 4 else s.pc.toNat + 2) ∧
        FrameExcept (fun p => p = .pc) s t) ∧
      (∃ t, exec (.sknp x) s = .next t ∧ t.pc.toNat = (if s.k[key] = true then s.pc.toNat + 2 else s.pc.toNat + 4) ∧
        FrameExcept (fun p => p = .pc) s t)) ∧
    ((s.reg x).toNat > 15 → exec (.skp x) s = .next { s with fault := some .outOfBounds } ∧
      exec (.sknp x) s = .next { s with fault := some .outOfBounds })

/-- Fx0A with no key pressed writes nothing, `pc` included; with some key pressed it gives the lowest number (the spec's decision D12)
and advances. -/
def Obligations.WaitForKey : Prop :=
  ∀ (x : Reg) (s : State),
    decode (BitVec.ofNat 16 (0xF00A + 256 * x.val)) = .ok (.ldVxK x) ∧
    ((∀ key : Reg, s.k[key] = false) → exec (.ldVxK x) s = .next s) ∧
    (∀ key : Reg, s.fetchable → s.k[key] = true → (∀ j : Reg, j < key → s.k[j] = false) →
      ∃ t, exec (.ldVxK x) s = .next t ∧ (t.reg x).toNat = key.val ∧ t.pc.toNat = s.pc.toNat + 2 ∧
        FrameExcept (writesReg x) s t)

/-- Fx07 reads DT, Fx15 and Fx18 set DT and ST from `V[x]`, and the timer update of the same step follows: Fx07 gives the DT of the
start of the step, Fx15 and Fx18 leave one less than `V[x]`, or 0. -/
def Obligations.TimerMoves : Prop :=
  ∀ (x : Reg) (s : State),
    decode (BitVec.ofNat 16 (0xF007 + 256 * x.val)) = .ok (.ldVxDt x) ∧
    decode (BitVec.ofNat 16 (0xF015 + 256 * x.val)) = .ok (.ldDtVx x) ∧
    decode (BitVec.ofNat 16 (0xF018 + 256 * x.val)) = .ok (.ldStVx x) ∧
    (s.fetchable →
      (∃ t, exec (.ldVxDt x) s = .next t ∧ t.reg x = s.dt ∧ t.pc.toNat = s.pc.toNat + 2 ∧ FrameExcept (writesReg x) s t) ∧
      (∃ t, exec (.ldDtVx x) s = .next t ∧ t.dt = s.reg x ∧ t.pc.toNat = s.pc.toNat + 2 ∧
        FrameExcept (fun p => p = .pc ∨ p = .dt) s t) ∧
      (∃ t, exec (.ldStVx x) s = .next t ∧ t.st = s.reg x ∧ t.pc.toNat = s.pc.toNat + 2 ∧
        FrameExcept (fun p => p = .pc ∨ p = .st) s t)) ∧
    (s.fetchable → s.fault = none →
      (decode s.wordAtPc = .ok (.ldVxDt x) →
        ∃ t, step s = .next t ∧ t.reg x = s.dt ∧ t.dt.toNat = s.dt.toNat - 1 ∧ t.st.toNat = s.st.toNat - 1) ∧
      (decode s.wordAtPc = .ok (.ldDtVx x) →
        ∃ t, step s = .next t ∧ t.dt.toNat = (s.reg x).toNat - 1 ∧ t.st.toNat = s.st.toNat - 1) ∧
      (decode s.wordAtPc = .ok (.ldStVx x) →
        ∃ t, step s = .next t ∧ t.st.toNat = (s.reg x).toNat - 1 ∧ t.dt.toNat = s.dt.toNat - 1))

/-! ## Reset, the other transactions, and invariants (10_state.md, 70_reset_and_hazards.md) -/

/-- What `initialize` leaves, from any state. The values of DIRTY, of the memory above the font and of FAULT are the spec's decisions
D10, D16 and D14, the font bytes are the model's PRESUMED default (log entry 3), and the random stream is not reset (log entry 2). -/
def Obligations.ResetValues : Prop :=
  ∀ s : State,
    (∀ x : Reg, s.hostReset.reg x = 0) ∧ s.hostReset.pc.toNat = 0x200 ∧ s.hostReset.i = 0 ∧ s.hostReset.sp.val = 0 ∧
    (∀ j : Reg, s.hostReset.stk[j] = 0) ∧ s.hostReset.dt = 0 ∧ s.hostReset.st = 0 ∧
    (∀ n, n < 2048 → s.hostReset.fb.cell n = false) ∧ s.hostReset.dirty = false ∧
    (∀ x : Reg, s.hostReset.k[x] = false) ∧ s.hostReset.opc = 0 ∧ s.hostReset.fault = none ∧
    (∀ a, a < 80 → some (s.hostReset.mem.read a) = font[a]?) ∧
    (∀ a, 80 ≤ a → a < 4096 → s.hostReset.mem.read a = 0) ∧ s.hostReset.draws = s.draws

/-- `loadProgram` copies at most 3584 bytes to 0x200 upward and changes nothing else, the fault latch included; an empty sequence is
LoadError and changes nothing. Its use between any two steps is the spec's decision D23. -/
def Obligations.LoadProgramCopiesTheImage : Prop :=
  ∀ (s : State) (bytes : List Byte),
    (bytes = [] → s.loadProgram bytes = (.loadError, s)) ∧
    (bytes ≠ [] → s.mem.wf → ∃ t, s.loadProgram bytes = (.ok, t) ∧
      (∀ j, (h : j < bytes.length) → j < 3584 → t.mem.read (0x200 + j) = bytes[j]) ∧
      FrameExcept (fun p => ∃ a, 0x200 ≤ a ∧ a < 0x200 + min bytes.length 3584 ∧ p = .byte a) s t)

/-- `key_set` sets one level, `dirty_clear` clears DIRTY, and neither changes anything else; both work while the machine is halted. -/
def Obligations.KeySetAndDirtyClear : Prop :=
  ∀ (s : State) (key : Reg) (level : Bool),
    ((s.keySet key level).k[key] = level ∧ FrameExcept (fun p => p = .key key) s (s.keySet key level)) ∧
    (s.dirtyClear.dirty = false ∧ FrameExcept (fun p => p = .dirty) s s.dirtyClear)

/-- The invariants hold after reset. -/
def Obligations.InvariantsHoldAtReset : Prop := State.reset.Inv

/-- Every step keeps the invariants: memory canonical and below 4096, `I` at most 0xFFF, `pc` at most 0x10FE, stack entries in use at
most 0xFFE. -/
def Obligations.StepKeepsInvariants : Prop := ∀ s t : State, s.Inv → step s = .next t → t.Inv

/-- Every transaction keeps the invariants, from every state that satisfies them: a step, `initialize`, `loadProgram` with any image,
`key_set` and `dirty_clear`. -/
def Obligations.EveryTransactionKeepsInvariants : Prop := ∀ (s : State) (t : Transaction), s.Inv → (s.perform t).Inv

/-- Every state the host can bring about from reset, by transactions in any order, satisfies the invariants. -/
def Obligations.ReachableStatesSatisfyInvariants : Prop := ∀ s : State, Reachable s → s.Inv

/-- After a return the new `pc` is at most 0x1000 in every state that satisfies the invariants. -/
def Obligations.ReturnStaysBelowTheEnd : Prop :=
  ∀ s t : State, s.Inv → 0 < s.sp.val → exec .ret s = .next t → t.pc.toNat ≤ 0x1000
end

