-- ==== Sys2Proof/Laws/Decode.lean ====
section
/-! SUPPORT. The fields of the encoded forms and the forms of the fields (30_encoding.md R71, R72). -/

namespace Sys2Proof

theorem fieldX_eq (op : Word) (x : Reg) (h : op.extractLsb' 8 4 = regBits x) : fieldX op = x := by
  apply Fin.ext
  simp only [fieldX, h, regBits, BitVec.toNat_ofNat]
  omega

theorem fieldY_eq (op : Word) (y : Reg) (h : op.extractLsb' 4 4 = regBits y) : fieldY op = y := by
  apply Fin.ext
  simp only [fieldY, h, regBits, BitVec.toNat_ofNat]
  omega

@[simp] theorem regBits_fieldX (op : Word) : regBits (fieldX op) = op.extractLsb' 8 4 := by
  apply BitVec.eq_of_toNat_eq
  rw [regBits, fieldX, BitVec.toNat_ofNat]
  exact Nat.mod_eq_of_lt (op.extractLsb' 8 4).isLt

@[simp] theorem regBits_fieldY (op : Word) : regBits (fieldY op) = op.extractLsb' 4 4 := by
  apply BitVec.eq_of_toNat_eq
  rw [regBits, fieldY, BitVec.toNat_ofNat]
  exact Nat.mod_eq_of_lt (op.extractLsb' 4 4).isLt

/-! ## Format NNN -/

@[simp] theorem fieldF_formNNN (f : Nibble) (nnn : Addr) : fieldF (formNNN f nnn) = f := by
  apply BitVec.eq_of_getLsbD_eq
  intro j hj
  simp only [fieldF, formNNN, BitVec.getLsbD_extractLsb', BitVec.getLsbD_append]
  interval_cases j <;> simp

@[simp] theorem fieldNNN_formNNN (f : Nibble) (nnn : Addr) : fieldNNN (formNNN f nnn) = nnn := by
  apply BitVec.eq_of_getLsbD_eq
  intro j hj
  simp only [fieldNNN, formNNN, BitVec.getLsbD_extractLsb', BitVec.getLsbD_append]
  interval_cases j <;> simp

/-- A word is format NNN of its own fields. -/
theorem formNNN_fields (op : Word) : formNNN (fieldF op) (fieldNNN op) = op := by
  apply BitVec.eq_of_getLsbD_eq
  intro j hj
  simp only [formNNN, fieldF, fieldNNN, BitVec.getLsbD_append, BitVec.getLsbD_extractLsb']
  interval_cases j <;> simp

/-! ## Formats XKK and XSS -/

@[simp] theorem fieldF_formXKK (f : Nibble) (x : Reg) (kk : Byte) : fieldF (formXKK f x kk) = f := by
  apply BitVec.eq_of_getLsbD_eq
  intro j hj
  simp only [fieldF, formXKK, BitVec.getLsbD_extractLsb', BitVec.getLsbD_append]
  interval_cases j <;> simp

@[simp] theorem fieldX_formXKK (f : Nibble) (x : Reg) (kk : Byte) : fieldX (formXKK f x kk) = x := by
  apply fieldX_eq
  apply BitVec.eq_of_getLsbD_eq
  intro j hj
  simp only [formXKK, BitVec.getLsbD_extractLsb', BitVec.getLsbD_append]
  interval_cases j <;> simp

@[simp] theorem fieldKK_formXKK (f : Nibble) (x : Reg) (kk : Byte) : fieldKK (formXKK f x kk) = kk := by
  apply BitVec.eq_of_getLsbD_eq
  intro j hj
  simp only [fieldKK, formXKK, BitVec.getLsbD_extractLsb', BitVec.getLsbD_append]
  interval_cases j <;> simp

/-- A word is format XKK of its own fields. -/
theorem formXKK_fields (op : Word) : formXKK (fieldF op) (fieldX op) (fieldKK op) = op := by
  apply BitVec.eq_of_getLsbD_eq
  intro j hj
  simp only [formXKK, regBits_fieldX, fieldF, fieldKK, BitVec.getLsbD_append, BitVec.getLsbD_extractLsb']
  interval_cases j <;> simp

/-! ## Formats XYN and XYS -/

@[simp] theorem fieldF_formXYN (f : Nibble) (x y : Reg) (n : Nibble) : fieldF (formXYN f x y n) = f := by
  apply BitVec.eq_of_getLsbD_eq
  intro j hj
  simp only [fieldF, formXYN, BitVec.getLsbD_extractLsb', BitVec.getLsbD_append]
  interval_cases j <;> simp

@[simp] theorem fieldX_formXYN (f : Nibble) (x y : Reg) (n : Nibble) : fieldX (formXYN f x y n) = x := by
  apply fieldX_eq
  apply BitVec.eq_of_getLsbD_eq
  intro j hj
  simp only [formXYN, BitVec.getLsbD_extractLsb', BitVec.getLsbD_append]
  interval_cases j <;> simp

@[simp] theorem fieldY_formXYN (f : Nibble) (x y : Reg) (n : Nibble) : fieldY (formXYN f x y n) = y := by
  apply fieldY_eq
  apply BitVec.eq_of_getLsbD_eq
  intro j hj
  simp only [formXYN, BitVec.getLsbD_extractLsb', BitVec.getLsbD_append]
  interval_cases j <;> simp

@[simp] theorem fieldN_formXYN (f : Nibble) (x y : Reg) (n : Nibble) : fieldN (formXYN f x y n) = n := by
  apply BitVec.eq_of_getLsbD_eq
  intro j hj
  simp only [fieldN, formXYN, BitVec.getLsbD_extractLsb', BitVec.getLsbD_append]
  interval_cases j <;> simp

/-- A word is format XYN of its own fields. -/
theorem formXYN_fields (op : Word) : formXYN (fieldF op) (fieldX op) (fieldY op) (fieldN op) = op := by
  apply BitVec.eq_of_getLsbD_eq
  intro j hj
  simp only [formXYN, regBits_fieldX, regBits_fieldY, fieldF, fieldN, BitVec.getLsbD_append, BitVec.getLsbD_extractLsb']
  interval_cases j <;> simp

/-! ## Forms as numbers -/

/-- A concatenation as a number. -/
theorem toNat_append_eq {m n : Nat} (a : BitVec m) (b : BitVec n) : (a ++ b).toNat = a.toNat * 2 ^ n + b.toNat := by
  rw [BitVec.toNat_append, ← Nat.shiftLeft_add_eq_or_of_lt b.isLt, Nat.shiftLeft_eq]

theorem regBits_toNat (x : Reg) : (regBits x).toNat = x.val := by
  rw [regBits, BitVec.toNat_ofNat]; omega

/-- Format NNN as a number. -/
theorem formNNN_eq_ofNat (f : Nibble) (nnn : Addr) : formNNN f nnn = BitVec.ofNat 16 (4096 * f.toNat + nnn.toNat) := by
  apply BitVec.eq_of_toNat_eq
  have := (formNNN f nnn).isLt
  rw [BitVec.toNat_ofNat, formNNN, toNat_append_eq] at *
  omega

/-- Format XKK as a number. -/
theorem formXKK_eq_ofNat (f : Nibble) (x : Reg) (kk : Byte) :
    formXKK f x kk = BitVec.ofNat 16 (4096 * f.toNat + 256 * x.val + kk.toNat) := by
  apply BitVec.eq_of_toNat_eq
  have := (formXKK f x kk).isLt
  rw [BitVec.toNat_ofNat, formXKK, toNat_append_eq, toNat_append_eq, regBits_toNat] at *
  omega

/-- Format XYN as a number. -/
theorem formXYN_eq_ofNat (f : Nibble) (x y : Reg) (n : Nibble) :
    formXYN f x y n = BitVec.ofNat 16 (4096 * f.toNat + 256 * x.val + 16 * y.val + n.toNat) := by
  apply BitVec.eq_of_toNat_eq
  have := (formXYN f x y n).isLt
  rw [BitVec.toNat_ofNat, formXYN, toNat_append_eq, toNat_append_eq, toNat_append_eq, regBits_toNat, regBits_toNat] at *
  omega

/-! ## Fields as numbers -/

theorem fieldF_toNat (op : Word) : (fieldF op).toNat = op.toNat / 4096 := by
  have := op.isLt
  simp only [fieldF, BitVec.extractLsb'_toNat, Nat.shiftRight_eq_div_pow]; omega

theorem fieldN_toNat (op : Word) : (fieldN op).toNat = op.toNat % 16 := by
  simp only [fieldN, BitVec.extractLsb'_toNat, Nat.shiftRight_eq_div_pow]; omega

theorem fieldKK_toNat (op : Word) : (fieldKK op).toNat = op.toNat % 256 := by
  simp only [fieldKK, BitVec.extractLsb'_toNat, Nat.shiftRight_eq_div_pow]; omega

theorem fieldNNN_toNat (op : Word) : (fieldNNN op).toNat = op.toNat % 4096 := by
  simp only [fieldNNN, BitVec.extractLsb'_toNat, Nat.shiftRight_eq_div_pow]; omega

theorem fieldX_val (op : Word) : (fieldX op).val = op.toNat / 256 % 16 := by
  simp only [fieldX, BitVec.extractLsb'_toNat, Nat.shiftRight_eq_div_pow]

theorem fieldY_val (op : Word) : (fieldY op).val = op.toNat / 16 % 16 := by
  simp only [fieldY, BitVec.extractLsb'_toNat, Nat.shiftRight_eq_div_pow]

/-! ## Memory order -/

/-- The two bytes of a word, high byte first, make the word again (20_memory.md R54). -/
@[simp] theorem wordOfBytes_bytes (op : Word) : wordOfBytes (highByte op) (lowByte op) = op := by
  apply BitVec.eq_of_getLsbD_eq
  intro j hj
  simp only [wordOfBytes, highByte, lowByte, BitVec.getLsbD_append, BitVec.getLsbD_extractLsb']
  interval_cases j <;> simp

/-- The big-endian word as a number (40_step_cycle.md R92). -/
theorem wordOfBytes_toNat (hi lo : Byte) : (wordOfBytes hi lo).toNat = hi.toNat * 256 + lo.toNat := by
  have h := lo.isLt
  rw [wordOfBytes, BitVec.toNat_append, ← Nat.shiftLeft_add_eq_or_of_lt h, Nat.shiftLeft_eq]

end Sys2Proof
end

