-- ==== Sys2Proof/Laws/Memory.lean ====
section
/-! SUPPORT. Memory: a read after a write, and the canonical form (20_memory.md R53, R58). -/

namespace Sys2Proof.Machine

/-- The one bound check, on integers (20_memory.md R58). -/
@[simp] theorem rangeOk_iff (base n : Nat) : rangeOk base n = true ↔ base + n ≤ 4096 := by
  simp [rangeOk]

theorem rangeOk_eq_false (base n : Nat) : rangeOk base n = false ↔ 4096 < base + n := by
  simp [rangeOk]

/-! ## One byte -/

theorem Memory.read_above (m : Memory) (a : Nat) (h : ∀ p ∈ m, a < p.1) : m.read a = resetByte a := by
  induction m with
  | nil => rfl
  | cons p rest ih =>
    have hp : ¬ p.1 = a := by have := h p (by simp); omega
    rw [Memory.read.eq_2, if_neg hp]
    exact ih fun q hq => h q (by simp [hq])

theorem Memory.read_cons_ne (m : Memory) (a x : Nat) (b : Byte) (h : x ≠ a) : (Memory.cons a b m).read x = m.read x := by
  unfold Memory.cons
  split
  · rfl
  · rw [Memory.read.eq_2, if_neg (by omega)]

theorem Memory.read_cons_self (m : Memory) (a : Nat) (b : Byte) (h : ∀ p ∈ m, a < p.1) :
    (Memory.cons a b m).read a = b := by
  unfold Memory.cons
  split
  · rename_i hb; rw [Memory.read_above m a h, hb]
  · simp [Memory.read]

/-- A write leaves every other address alone. -/
theorem Memory.read_write_ne (m : Memory) (a x : Nat) (b : Byte) (h : x ≠ a) : (m.write a b).read x = m.read x := by
  induction m with
  | nil => exact Memory.read_cons_ne [] a x b h
  | cons p rest ih =>
    unfold Memory.write
    split
    · exact Memory.read_cons_ne _ a x b h
    · split
      · rename_i hpa
        rw [Memory.read_cons_ne _ a x b h, Memory.read.eq_2, if_neg (by omega)]
      · rw [Memory.read.eq_2, Memory.read.eq_2, ih]

/-- A read of the address just written gives the value written. -/
theorem Memory.read_write_self (m : Memory) (a : Nat) (b : Byte) (h : m.Pairwise (fun p q => p.1 < q.1)) :
    (m.write a b).read a = b := by
  induction m with
  | nil => exact Memory.read_cons_self [] a b (by simp)
  | cons p rest ih =>
    obtain ⟨hp, hrest⟩ := List.pairwise_cons.mp h
    unfold Memory.write
    split
    · rename_i hlt
      refine Memory.read_cons_self _ a b fun q hq => ?_
      rcases List.mem_cons.mp hq with rfl | hq
      · exact hlt
      · have := hp q hq; omega
    · split
      · rename_i heq
        exact Memory.read_cons_self rest a b fun q hq => heq ▸ hp q hq
      · rename_i hne
        rw [Memory.read.eq_2, if_neg (by omega), ih hrest]

/-! ## The canonical form -/

theorem Memory.cons_wf (m : Memory) (a : Nat) (b : Byte) (hm : m.wf) (ha : a < 4096) (h : ∀ p ∈ m, a < p.1) :
    (Memory.cons a b m).wf := by
  unfold Memory.cons
  split
  · exact hm
  · rename_i hb
    refine ⟨List.pairwise_cons.mpr ⟨h, hm.1⟩, fun p hp => ?_⟩
    rcases List.mem_cons.mp hp with rfl | hp
    · exact ⟨ha, hb⟩
    · exact hm.2 p hp

theorem Memory.wf_tail {p : Host.Cell} {m : Memory} (h : Memory.wf (p :: m)) : m.wf :=
  ⟨(List.pairwise_cons.mp h.1).2, fun q hq => h.2 q (by simp [hq])⟩

theorem Memory.mem_write (m : Memory) (a : Nat) (b : Byte) (p : Host.Cell) (h : p ∈ m.write a b) :
    p = (a, b) ∨ p ∈ m := by
  induction m with
  | nil =>
    unfold Memory.write Memory.cons at h
    split at h <;> simp_all
  | cons q rest ih =>
    unfold Memory.write Memory.cons at h
    grind

/-- A write inside memory keeps the canonical form. -/
theorem Memory.write_wf (m : Memory) (a : Nat) (b : Byte) (hm : m.wf) (ha : a < 4096) : (m.write a b).wf := by
  induction m with
  | nil => exact Memory.cons_wf [] a b hm ha (by simp)
  | cons p rest ih =>
    obtain ⟨hp, hrest⟩ := List.pairwise_cons.mp hm.1
    unfold Memory.write
    split
    · rename_i hlt
      refine Memory.cons_wf _ a b hm ha fun q hq => ?_
      rcases List.mem_cons.mp hq with rfl | hq
      · exact hlt
      · have := hp q hq; omega
    · split
      · rename_i heq
        exact Memory.cons_wf rest a b (Memory.wf_tail hm) ha fun q hq => heq ▸ hp q hq
      · rename_i hne
        have hw := ih (Memory.wf_tail hm)
        refine ⟨List.pairwise_cons.mpr ⟨fun q hq => ?_, hw.1⟩, fun q hq => ?_⟩
        · rcases Memory.mem_write rest a b q hq with rfl | hq
          · show p.1 < a; omega
          · exact hp q hq
        · rcases List.mem_cons.mp hq with rfl | hq
          · exact hm.2 _ (by simp)
          · exact hw.2 q hq

/-! ## Several bytes -/

@[simp] theorem Memory.length_readBytes (m : Memory) (a n : Nat) : (m.readBytes a n).length = n := by
  induction n generalizing a with
  | zero => rfl
  | succ n ih => simp [Memory.readBytes, ih]

/-- The j-th byte of a block is the byte at `a + j`. -/
theorem Memory.getElem_readBytes (m : Memory) (a n j : Nat) (h : j < (m.readBytes a n).length) :
    (m.readBytes a n)[j] = m.read (a + j) := by
  induction n generalizing a j with
  | zero => simp [Memory.readBytes] at h
  | succ n ih =>
    cases j with
    | zero => simp [Memory.readBytes]
    | succ j =>
      simp only [Memory.readBytes, List.getElem_cons_succ]
      rw [ih, Nat.add_right_comm, Nat.add_assoc]

/-- A block store leaves every address outside its block alone. -/
theorem Memory.read_writeBytes_outside (m : Memory) (a x : Nat) (bytes : List Byte)
    (h : x < a ∨ a + bytes.length ≤ x) : (m.writeBytes a bytes).read x = m.read x := by
  induction bytes generalizing m a with
  | nil => rfl
  | cons b bs ih =>
    simp only [List.length_cons] at h
    rw [Memory.writeBytes, ih _ _ (by omega), Memory.read_write_ne _ _ _ _ (by omega)]

/-- A block store inside memory keeps the canonical form. -/
theorem Memory.writeBytes_wf (m : Memory) (a : Nat) (bytes : List Byte) (hm : m.wf) (h : a + bytes.length ≤ 4096) :
    (m.writeBytes a bytes).wf := by
  induction bytes generalizing m a with
  | nil => exact hm
  | cons b bs ih =>
    simp only [List.length_cons] at h
    exact ih _ _ (Memory.write_wf m a b hm (by omega)) (by omega)

/-- A read inside a stored block gives the byte stored there. -/
theorem Memory.read_writeBytes_inside (m : Memory) (a j : Nat) (bytes : List Byte) (hm : m.wf)
    (h : a + bytes.length ≤ 4096) (hj : j < bytes.length) : (m.writeBytes a bytes).read (a + j) = bytes[j] := by
  induction bytes generalizing m a j with
  | nil => simp at hj
  | cons b bs ih =>
    simp only [List.length_cons] at h hj
    have hw := Memory.write_wf m a b hm (by omega)
    cases j with
    | zero =>
      rw [Memory.writeBytes, Memory.read_writeBytes_outside _ _ _ _ (by omega)]
      simpa using Memory.read_write_self m a b hm.1
    | succ j =>
      have h1 : a + (j + 1) = a + 1 + j := by omega
      rw [Memory.writeBytes, h1, ih (m.write a b) (a + 1) j hw (by omega) (by omega)]
      rfl

/-- Memory after reset lists nothing, which is canonical. -/
theorem Memory.reset_wf : State.reset.mem.wf := 
  ⟨List.Pairwise.nil, by simp [State.reset]⟩

end Sys2Proof.Machine
end

