-- ==== Sys2Proof/Laws/Display.lean ====
section
/-! SUPPORT. What a draw does to the framebuffer and to the collision flag (44_display.md R181, R183). -/

namespace Sys2Proof.Machine

/-! ## One pixel -/

theorem Framebuffer.pixel_outside (fb : Framebuffer) (cx cy : Nat) (h : ¬ (cx < 64 ∧ cy < 32)) :
    fb.pixel cx cy = false := by
  unfold Framebuffer.pixel
  by_cases hy : cy < 32
  · exact BitVec.getLsbD_of_ge _ _ (by omega)
  · simp [Vector.getD, hy]

/-- Flipping a cell of the grid changes that cell and no other. -/
theorem Framebuffer.pixel_flip (fb : Framebuffer) (cx cy a b : Nat) (hx : cx < 64) (hy : cy < 32) :
    (fb.flip cx cy).pixel a b = (fb.pixel a b ^^ decide (a = cx ∧ b = cy)) := by
  unfold Framebuffer.flip Framebuffer.pixel
  by_cases hb : b < 32
  · by_cases hbc : b = cy
    · subst hbc
      simp [Vector.getD, hb, BitVec.getLsbD_xor, BitVec.getLsbD_twoPow, hx, eq_comm]
    · have : ¬ cy = b := fun h => hbc h.symm
      simp [Vector.getD, hb, hbc, this]
  · have : b ≠ cy := by omega
    simp [Vector.getD, hb, this]

/-- A cleared framebuffer has no cell set (44_display.md R180). -/
theorem Framebuffer.pixel_clear (a b : Nat) : Framebuffer.pixel (Vector.replicate 32 0) a b = false := by
  unfold Framebuffer.pixel
  by_cases hb : b < 32 <;> simp [Vector.getD, hb]

/-! ## What painting a set of cells is -/

/-- From `p` to `q` exactly the cells of the set are flipped, and a collision is added exactly when one of them was set. -/
structure Paints (p q : Blit) (cells : Nat → Nat → Bool) : Prop where
  pixel : ∀ a b, q.fb.pixel a b = (p.fb.pixel a b ^^ cells a b)
  collision : q.collision = true ↔ p.collision = true ∨ ∃ a b, cells a b = true ∧ p.fb.pixel a b = true

theorem Paints.nothing (p : Blit) : Paints p p (fun _ _ => false) := ⟨by simp, by simp⟩

theorem Paints.congr {p q : Blit} {c d : Nat → Nat → Bool} (h : Paints p q c) (hcd : ∀ a b, c a b = d a b) :
    Paints p q d := by
  have : c = d := funext fun a => funext fun b => hcd a b
  exact this ▸ h

/-- Two paintings of disjoint sets paint their union. -/
theorem Paints.trans {p q r : Blit} {c d : Nat → Nat → Bool} (h1 : Paints p q c) (h2 : Paints q r d)
    (hdis : ∀ a b, c a b = true → d a b = false) : Paints p r (fun a b => c a b || d a b) := by
  constructor
  · intro a b
    have := hdis a b
    rw [h2.pixel, h1.pixel]
    cases hc : c a b <;> cases hd : d a b <;> simp_all
  · rw [h2.collision, h1.collision]
    constructor
    · rintro ((h | ⟨a, b, hc, hp⟩) | ⟨a, b, hd, hq⟩)
      · exact .inl h
      · exact .inr ⟨a, b, by simp [hc], hp⟩
      · have hc : c a b = false := by
          cases hc : c a b
          · rfl
          · exact absurd hd (by simp [hdis a b hc])
        exact .inr ⟨a, b, by simp [hd], by simpa [h1.pixel, hc] using hq⟩
    · rintro (h | ⟨a, b, hcd, hp⟩)
      · exact .inl (.inl h)
      · cases hc : c a b
        · exact .inr ⟨a, b, by simpa [hc] using hcd, by simp [h1.pixel, hc, hp]⟩
        · exact .inl (.inr ⟨a, b, hc, hp⟩)

/-! ## Dots, columns, rows, sprites -/

/-- One set sprite bit paints its own cell, if that lies in the grid. -/
theorem Blit.dot_paints (p : Blit) (cx cy : Nat) :
    Paints p (p.dot cx cy) (fun a b => decide (a < 64 ∧ b < 32 ∧ a = cx ∧ b = cy)) := by
  unfold Blit.dot
  by_cases h : cx < 64 ∧ cy < 32
  · rw [if_pos h]
    constructor
    · intro a b
      rw [Framebuffer.pixel_flip _ _ _ _ _ h.1 h.2]
      congr 1
      exact decide_eq_decide.mpr ⟨fun ⟨h1, h2⟩ => ⟨by omega, by omega, h1, h2⟩, fun h' => h'.2.2⟩
    · simp only [Bool.or_eq_true, decide_eq_true_eq]
      constructor
      · rintro (hc | hp)
        · exact .inl hc
        · exact .inr ⟨cx, cy, ⟨h.1, h.2, rfl, rfl⟩, hp⟩
      · rintro (hc | ⟨a, b, ⟨_, _, rfl, rfl⟩, hp⟩)
        · exact .inl hc
        · exact .inr hp
  · rw [if_neg h]
    refine (Paints.nothing p).congr fun a b => ?_
    symm
    simp only [decide_eq_false_iff_not]
    rintro ⟨h1, h2, rfl, rfl⟩
    exact h ⟨h1, h2⟩

/-- The cells one sprite row paints through the given columns. -/
def columnCells (b : Byte) (vx cy : Nat) (cols : List Nat) (a r : Nat) : Bool :=
  decide (a < 64 ∧ r < 32 ∧ r = cy) && cols.any (fun col => decide (a = vx + col) && b.getLsbD (7 - col))

theorem Blit.columns_paints (p : Blit) (b : Byte) (vx cy : Nat) (cols : List Nat) (hc : cols.Nodup) :
    Paints p (p.columns b vx cy cols) (columnCells b vx cy cols) := by
  induction cols generalizing p with
  | nil => exact (Paints.nothing p).congr fun a r => by simp [columnCells]
  | cons col rest ih =>
    obtain ⟨hcol, hrest⟩ := List.nodup_cons.mp hc
    have key : ∀ q : Blit, ∀ c : Nat → Nat → Bool, Paints p q c →
        (∀ a r, c a r = (decide (a < 64 ∧ r < 32 ∧ r = cy) && (decide (a = vx + col) && b.getLsbD (7 - col)))) →
        Paints p (q.columns b vx cy rest) (columnCells b vx cy (col :: rest)) := by
      intro q c hq hcells
      refine (hq.trans (ih q hrest) fun a r hcar => ?_).congr fun a r => ?_
      · rw [hcells] at hcar
        simp only [Bool.and_eq_true, decide_eq_true_eq] at hcar
        unfold columnCells
        rw [Bool.and_eq_false_iff]
        right
        rw [List.any_eq_false]
        intro k hk
        have : k ≠ col := fun h => hcol (h ▸ hk)
        simp; omega
      · rw [hcells]
        unfold columnCells
        rw [List.any_cons, ← Bool.and_or_distrib_left]
    unfold Blit.columns
    split
    · rename_i hbit
      refine key _ _ (Blit.dot_paints p (vx + col) cy) fun a r => ?_
      rw [hbit, Bool.and_true, ← Bool.decide_and]
      exact decide_eq_decide.mpr ⟨fun h => ⟨⟨h.1, h.2.1, h.2.2.2⟩, h.2.2.1⟩, fun h => ⟨h.1.1, h.1.2.1, h.2, h.1.2.2⟩⟩
    · rename_i hbit
      refine key _ _ (Paints.nothing p) fun a r => ?_
      simp [Bool.eq_false_iff.mpr hbit]

/-- The cells a sprite of the given bytes paints: inside the grid only, bit 7 leftmost (44_display.md R181, R183). -/
def spriteCells (bytes : List Byte) (vx cy : Nat) (a r : Nat) : Bool :=
  decide (a < 64 ∧ r < 32) && (decide (vx ≤ a ∧ a < vx + 8 ∧ cy ≤ r ∧ r < cy + bytes.length) &&
    (bytes.getD (r - cy) 0).getLsbD (7 - (a - vx)))

theorem Blit.row_paints (p : Blit) (b : Byte) (vx cy : Nat) :
    Paints p (p.row b vx cy) (spriteCells [b] vx cy) := by
  refine (Blit.columns_paints p b vx cy _ (by decide)).congr fun a r => ?_
  unfold columnCells spriteCells
  rw [Bool.eq_iff_iff]
  simp only [Bool.and_eq_true, decide_eq_true_eq, List.any_eq_true, List.length_singleton]
  constructor
  · rintro ⟨⟨ha, hr, rfl⟩, col, hcol, rfl, hbit⟩
    have hlt : col < 8 := by simp at hcol; omega
    refine ⟨⟨ha, hr⟩, ⟨by omega, by omega, by omega, by omega⟩, ?_⟩
    simpa using hbit
  · rintro ⟨⟨ha, hr⟩, ⟨h1, h2, h3, h4⟩, hbit⟩
    have hrc : r = cy := by omega
    refine ⟨⟨ha, hr, hrc⟩, a - vx, ?_, by omega, ?_⟩
    · have : a - vx < 8 := by omega
      simp; omega
    · subst hrc
      simpa using hbit

theorem Blit.sprite_paints (p : Blit) (bytes : List Byte) (vx cy : Nat) :
    Paints p (p.sprite bytes vx cy) (spriteCells bytes vx cy) := by
  induction bytes generalizing p cy with
  | nil => exact (Paints.nothing p).congr fun a r => by simp [spriteCells]
  | cons b bs ih =>
    refine ((Blit.row_paints p b vx cy).trans (ih (p.row b vx cy) (cy + 1)) fun a r h => ?_).congr fun a r => ?_
    · simp only [spriteCells, Bool.and_eq_true, decide_eq_true_eq, List.length_singleton] at h
      simp only [spriteCells, Bool.and_eq_false_iff, decide_eq_false_iff_not]
      right; left; omega
    · rw [Bool.eq_iff_iff]
      simp only [spriteCells, Bool.or_eq_true, Bool.and_eq_true, decide_eq_true_eq, List.length_cons, List.length_nil]
      by_cases hr : r = cy
      · subst hr
        simp
      · by_cases hlt : cy + 1 ≤ r
        · have h1 : r - cy = (r - (cy + 1)) + 1 := by omega
          rw [h1]
          simp only [List.getD_cons_succ]
          constructor
          · rintro (⟨_, ⟨_, _, _, _⟩, _⟩ | ⟨hg, ⟨h2, h3, h4, h5⟩, hb⟩)
            · omega
            · exact ⟨hg, ⟨h2, h3, by omega, by omega⟩, hb⟩
          · rintro ⟨hg, ⟨h2, h3, h4, h5⟩, hb⟩
            exact .inr ⟨hg, ⟨h2, h3, by omega, by omega⟩, hb⟩
        · constructor
          · rintro (⟨_, ⟨_, _, _, _⟩, _⟩ | ⟨_, ⟨_, _, _, _⟩, _⟩) <;> omega
          · rintro ⟨_, ⟨_, _, _, _⟩, _⟩; omega

/-- A draw flips exactly the sprite's set bits that lie inside the grid, and collides exactly when one of those cells was set
(44_display.md R181). -/
theorem drawBlit_paints (x y : Reg) (n : Nibble) (s : State) :
    Paints ⟨s.fb, false⟩ (drawBlit x y n s) (fun a r => decide (a < 64 ∧ r < 32) &&
      spriteBit s.mem s.i.toNat n.toNat (s.reg x).toNat (s.reg y).toNat a r) := by
  refine (Blit.sprite_paints _ _ _ _).congr fun a r => ?_
  unfold spriteCells spriteBit
  rw [Bool.eq_iff_iff]
  simp only [Bool.and_eq_true, decide_eq_true_eq, Memory.length_readBytes]
  constructor
  · rintro ⟨hg, ⟨h1, h2, h3, h4⟩, hb⟩
    refine ⟨hg, ⟨⟨⟨h1, h2⟩, h3⟩, h4⟩, ?_⟩
    rw [List.getD_eq_getElem _ _ (by rw [Memory.length_readBytes]; omega), Memory.getElem_readBytes] at hb
    exact hb
  · rintro ⟨hg, ⟨⟨⟨h1, h2⟩, h3⟩, h4⟩, hb⟩
    refine ⟨hg, ⟨h1, h2, h3, h4⟩, ?_⟩
    rw [List.getD_eq_getElem _ _ (by rw [Memory.length_readBytes]; omega), Memory.getElem_readBytes]
    exact hb

/-- Two framebuffers with the same cells are the same. -/
theorem Framebuffer.ext_pixel (f g : Framebuffer) (h : ∀ a b, a < 64 → b < 32 → f.pixel a b = g.pixel a b) : f = g := by
  apply Vector.ext
  intro b hb
  apply BitVec.eq_of_getLsbD_eq
  intro a ha
  have := h a b ha hb
  simpa [Framebuffer.pixel, Vector.getD, hb] using this

end Sys2Proof.Machine
end

