-- ==== Sys2Proof/Laws/State.lean ====
section
/-! SUPPORT. What each named update of the state leaves in each field, so that no proof unfolds a record update. -/

namespace Sys2Proof.Machine

/-! ## setReg -/

@[simp] theorem State.setReg_v (s : State) (x : Reg) (b : Byte) : (s.setReg x b).v = s.v.set x b := rfl
@[simp] theorem State.setReg_pc (s : State) (x : Reg) (b : Byte) : (s.setReg x b).pc = s.pc := rfl
@[simp] theorem State.setReg_i (s : State) (x : Reg) (b : Byte) : (s.setReg x b).i = s.i := rfl
@[simp] theorem State.setReg_stk (s : State) (x : Reg) (b : Byte) : (s.setReg x b).stk = s.stk := rfl
@[simp] theorem State.setReg_sp (s : State) (x : Reg) (b : Byte) : (s.setReg x b).sp = s.sp := rfl
@[simp] theorem State.setReg_dt (s : State) (x : Reg) (b : Byte) : (s.setReg x b).dt = s.dt := rfl
@[simp] theorem State.setReg_st (s : State) (x : Reg) (b : Byte) : (s.setReg x b).st = s.st := rfl
@[simp] theorem State.setReg_fb (s : State) (x : Reg) (b : Byte) : (s.setReg x b).fb = s.fb := rfl
@[simp] theorem State.setReg_dirty (s : State) (x : Reg) (b : Byte) : (s.setReg x b).dirty = s.dirty := rfl
@[simp] theorem State.setReg_k (s : State) (x : Reg) (b : Byte) : (s.setReg x b).k = s.k := rfl
@[simp] theorem State.setReg_mem (s : State) (x : Reg) (b : Byte) : (s.setReg x b).mem = s.mem := rfl
@[simp] theorem State.setReg_opc (s : State) (x : Reg) (b : Byte) : (s.setReg x b).opc = s.opc := rfl
@[simp] theorem State.setReg_fault (s : State) (x : Reg) (b : Byte) : (s.setReg x b).fault = s.fault := rfl
@[simp] theorem State.setReg_draws (s : State) (x : Reg) (b : Byte) : (s.setReg x b).draws = s.draws := rfl

/-! ## jump -/

@[simp] theorem State.jump_v (s : State) (w : Word) : (s.jump w).v = s.v := rfl
@[simp] theorem State.jump_pc (s : State) (w : Word) : (s.jump w).pc = w := rfl
@[simp] theorem State.jump_i (s : State) (w : Word) : (s.jump w).i = s.i := rfl
@[simp] theorem State.jump_stk (s : State) (w : Word) : (s.jump w).stk = s.stk := rfl
@[simp] theorem State.jump_sp (s : State) (w : Word) : (s.jump w).sp = s.sp := rfl
@[simp] theorem State.jump_dt (s : State) (w : Word) : (s.jump w).dt = s.dt := rfl
@[simp] theorem State.jump_st (s : State) (w : Word) : (s.jump w).st = s.st := rfl
@[simp] theorem State.jump_fb (s : State) (w : Word) : (s.jump w).fb = s.fb := rfl
@[simp] theorem State.jump_dirty (s : State) (w : Word) : (s.jump w).dirty = s.dirty := rfl
@[simp] theorem State.jump_k (s : State) (w : Word) : (s.jump w).k = s.k := rfl
@[simp] theorem State.jump_mem (s : State) (w : Word) : (s.jump w).mem = s.mem := rfl
@[simp] theorem State.jump_opc (s : State) (w : Word) : (s.jump w).opc = s.opc := rfl
@[simp] theorem State.jump_fault (s : State) (w : Word) : (s.jump w).fault = s.fault := rfl
@[simp] theorem State.jump_draws (s : State) (w : Word) : (s.jump w).draws = s.draws := rfl

/-! ## advance -/

@[simp] theorem State.advance_v (s : State) : (s.advance).v = s.v := rfl
@[simp] theorem State.advance_pc (s : State) : (s.advance).pc = s.pc + 2 := rfl
@[simp] theorem State.advance_i (s : State) : (s.advance).i = s.i := rfl
@[simp] theorem State.advance_stk (s : State) : (s.advance).stk = s.stk := rfl
@[simp] theorem State.advance_sp (s : State) : (s.advance).sp = s.sp := rfl
@[simp] theorem State.advance_dt (s : State) : (s.advance).dt = s.dt := rfl
@[simp] theorem State.advance_st (s : State) : (s.advance).st = s.st := rfl
@[simp] theorem State.advance_fb (s : State) : (s.advance).fb = s.fb := rfl
@[simp] theorem State.advance_dirty (s : State) : (s.advance).dirty = s.dirty := rfl
@[simp] theorem State.advance_k (s : State) : (s.advance).k = s.k := rfl
@[simp] theorem State.advance_mem (s : State) : (s.advance).mem = s.mem := rfl
@[simp] theorem State.advance_opc (s : State) : (s.advance).opc = s.opc := rfl
@[simp] theorem State.advance_fault (s : State) : (s.advance).fault = s.fault := rfl
@[simp] theorem State.advance_draws (s : State) : (s.advance).draws = s.draws := rfl

/-! ## skipIf -/

@[simp] theorem State.skipIf_v (s : State) (c : Bool) : (s.skipIf c).v = s.v := rfl
@[simp] theorem State.skipIf_pc (s : State) (c : Bool) : (s.skipIf c).pc = if c then s.pc + 4 else s.pc + 2 := rfl
@[simp] theorem State.skipIf_i (s : State) (c : Bool) : (s.skipIf c).i = s.i := rfl
@[simp] theorem State.skipIf_stk (s : State) (c : Bool) : (s.skipIf c).stk = s.stk := rfl
@[simp] theorem State.skipIf_sp (s : State) (c : Bool) : (s.skipIf c).sp = s.sp := rfl
@[simp] theorem State.skipIf_dt (s : State) (c : Bool) : (s.skipIf c).dt = s.dt := rfl
@[simp] theorem State.skipIf_st (s : State) (c : Bool) : (s.skipIf c).st = s.st := rfl
@[simp] theorem State.skipIf_fb (s : State) (c : Bool) : (s.skipIf c).fb = s.fb := rfl
@[simp] theorem State.skipIf_dirty (s : State) (c : Bool) : (s.skipIf c).dirty = s.dirty := rfl
@[simp] theorem State.skipIf_k (s : State) (c : Bool) : (s.skipIf c).k = s.k := rfl
@[simp] theorem State.skipIf_mem (s : State) (c : Bool) : (s.skipIf c).mem = s.mem := rfl
@[simp] theorem State.skipIf_opc (s : State) (c : Bool) : (s.skipIf c).opc = s.opc := rfl
@[simp] theorem State.skipIf_fault (s : State) (c : Bool) : (s.skipIf c).fault = s.fault := rfl
@[simp] theorem State.skipIf_draws (s : State) (c : Bool) : (s.skipIf c).draws = s.draws := rfl

/-! ## raise -/

@[simp] theorem State.raise_v (s : State) (kind : FaultKind) : (s.raise kind).v = s.v := rfl
@[simp] theorem State.raise_pc (s : State) (kind : FaultKind) : (s.raise kind).pc = s.pc := rfl
@[simp] theorem State.raise_i (s : State) (kind : FaultKind) : (s.raise kind).i = s.i := rfl
@[simp] theorem State.raise_stk (s : State) (kind : FaultKind) : (s.raise kind).stk = s.stk := rfl
@[simp] theorem State.raise_sp (s : State) (kind : FaultKind) : (s.raise kind).sp = s.sp := rfl
@[simp] theorem State.raise_dt (s : State) (kind : FaultKind) : (s.raise kind).dt = s.dt := rfl
@[simp] theorem State.raise_st (s : State) (kind : FaultKind) : (s.raise kind).st = s.st := rfl
@[simp] theorem State.raise_fb (s : State) (kind : FaultKind) : (s.raise kind).fb = s.fb := rfl
@[simp] theorem State.raise_dirty (s : State) (kind : FaultKind) : (s.raise kind).dirty = s.dirty := rfl
@[simp] theorem State.raise_k (s : State) (kind : FaultKind) : (s.raise kind).k = s.k := rfl
@[simp] theorem State.raise_mem (s : State) (kind : FaultKind) : (s.raise kind).mem = s.mem := rfl
@[simp] theorem State.raise_opc (s : State) (kind : FaultKind) : (s.raise kind).opc = s.opc := rfl
@[simp] theorem State.raise_fault (s : State) (kind : FaultKind) : (s.raise kind).fault = some kind := rfl
@[simp] theorem State.raise_draws (s : State) (kind : FaultKind) : (s.raise kind).draws = s.draws := rfl

/-! ## tick -/

@[simp] theorem State.tick_v (s : State) : (s.tick).v = s.v := rfl
@[simp] theorem State.tick_pc (s : State) : (s.tick).pc = s.pc := rfl
@[simp] theorem State.tick_i (s : State) : (s.tick).i = s.i := rfl
@[simp] theorem State.tick_stk (s : State) : (s.tick).stk = s.stk := rfl
@[simp] theorem State.tick_sp (s : State) : (s.tick).sp = s.sp := rfl
@[simp] theorem State.tick_dt (s : State) : (s.tick).dt = tickDown s.dt := rfl
@[simp] theorem State.tick_st (s : State) : (s.tick).st = tickDown s.st := rfl
@[simp] theorem State.tick_fb (s : State) : (s.tick).fb = s.fb := rfl
@[simp] theorem State.tick_dirty (s : State) : (s.tick).dirty = s.dirty := rfl
@[simp] theorem State.tick_k (s : State) : (s.tick).k = s.k := rfl
@[simp] theorem State.tick_mem (s : State) : (s.tick).mem = s.mem := rfl
@[simp] theorem State.tick_opc (s : State) : (s.tick).opc = s.opc := rfl
@[simp] theorem State.tick_fault (s : State) : (s.tick).fault = s.fault := rfl
@[simp] theorem State.tick_draws (s : State) : (s.tick).draws = s.draws := rfl

/-! ## latchOpc -/

@[simp] theorem State.latchOpc_v (s : State) (op : Word) : (s.latchOpc op).v = s.v := rfl
@[simp] theorem State.latchOpc_pc (s : State) (op : Word) : (s.latchOpc op).pc = s.pc := rfl
@[simp] theorem State.latchOpc_i (s : State) (op : Word) : (s.latchOpc op).i = s.i := rfl
@[simp] theorem State.latchOpc_stk (s : State) (op : Word) : (s.latchOpc op).stk = s.stk := rfl
@[simp] theorem State.latchOpc_sp (s : State) (op : Word) : (s.latchOpc op).sp = s.sp := rfl
@[simp] theorem State.latchOpc_dt (s : State) (op : Word) : (s.latchOpc op).dt = s.dt := rfl
@[simp] theorem State.latchOpc_st (s : State) (op : Word) : (s.latchOpc op).st = s.st := rfl
@[simp] theorem State.latchOpc_fb (s : State) (op : Word) : (s.latchOpc op).fb = s.fb := rfl
@[simp] theorem State.latchOpc_dirty (s : State) (op : Word) : (s.latchOpc op).dirty = s.dirty := rfl
@[simp] theorem State.latchOpc_k (s : State) (op : Word) : (s.latchOpc op).k = s.k := rfl
@[simp] theorem State.latchOpc_mem (s : State) (op : Word) : (s.latchOpc op).mem = s.mem := rfl
@[simp] theorem State.latchOpc_opc (s : State) (op : Word) : (s.latchOpc op).opc = op := rfl
@[simp] theorem State.latchOpc_fault (s : State) (op : Word) : (s.latchOpc op).fault = s.fault := rfl
@[simp] theorem State.latchOpc_draws (s : State) (op : Word) : (s.latchOpc op).draws = s.draws := rfl

/-! ## setResultThenFlag -/

@[simp] theorem State.setResultThenFlag_v (s : State) (x : Reg) (r f : Byte) : (s.setResultThenFlag x r f).v = (s.v.set x r).set 15 f := rfl
@[simp] theorem State.setResultThenFlag_pc (s : State) (x : Reg) (r f : Byte) : (s.setResultThenFlag x r f).pc = s.pc := rfl
@[simp] theorem State.setResultThenFlag_i (s : State) (x : Reg) (r f : Byte) : (s.setResultThenFlag x r f).i = s.i := rfl
@[simp] theorem State.setResultThenFlag_stk (s : State) (x : Reg) (r f : Byte) : (s.setResultThenFlag x r f).stk = s.stk := rfl
@[simp] theorem State.setResultThenFlag_sp (s : State) (x : Reg) (r f : Byte) : (s.setResultThenFlag x r f).sp = s.sp := rfl
@[simp] theorem State.setResultThenFlag_dt (s : State) (x : Reg) (r f : Byte) : (s.setResultThenFlag x r f).dt = s.dt := rfl
@[simp] theorem State.setResultThenFlag_st (s : State) (x : Reg) (r f : Byte) : (s.setResultThenFlag x r f).st = s.st := rfl
@[simp] theorem State.setResultThenFlag_fb (s : State) (x : Reg) (r f : Byte) : (s.setResultThenFlag x r f).fb = s.fb := rfl
@[simp] theorem State.setResultThenFlag_dirty (s : State) (x : Reg) (r f : Byte) : (s.setResultThenFlag x r f).dirty = s.dirty := rfl
@[simp] theorem State.setResultThenFlag_k (s : State) (x : Reg) (r f : Byte) : (s.setResultThenFlag x r f).k = s.k := rfl
@[simp] theorem State.setResultThenFlag_mem (s : State) (x : Reg) (r f : Byte) : (s.setResultThenFlag x r f).mem = s.mem := rfl
@[simp] theorem State.setResultThenFlag_opc (s : State) (x : Reg) (r f : Byte) : (s.setResultThenFlag x r f).opc = s.opc := rfl
@[simp] theorem State.setResultThenFlag_fault (s : State) (x : Reg) (r f : Byte) : (s.setResultThenFlag x r f).fault = s.fault := rfl
@[simp] theorem State.setResultThenFlag_draws (s : State) (x : Reg) (r f : Byte) : (s.setResultThenFlag x r f).draws = s.draws := rfl

/-! ## setFlagThenResult -/

@[simp] theorem State.setFlagThenResult_v (s : State) (x : Reg) (r f : Byte) : (s.setFlagThenResult x r f).v = (s.v.set 15 f).set x r := rfl
@[simp] theorem State.setFlagThenResult_pc (s : State) (x : Reg) (r f : Byte) : (s.setFlagThenResult x r f).pc = s.pc := rfl
@[simp] theorem State.setFlagThenResult_i (s : State) (x : Reg) (r f : Byte) : (s.setFlagThenResult x r f).i = s.i := rfl
@[simp] theorem State.setFlagThenResult_stk (s : State) (x : Reg) (r f : Byte) : (s.setFlagThenResult x r f).stk = s.stk := rfl
@[simp] theorem State.setFlagThenResult_sp (s : State) (x : Reg) (r f : Byte) : (s.setFlagThenResult x r f).sp = s.sp := rfl
@[simp] theorem State.setFlagThenResult_dt (s : State) (x : Reg) (r f : Byte) : (s.setFlagThenResult x r f).dt = s.dt := rfl
@[simp] theorem State.setFlagThenResult_st (s : State) (x : Reg) (r f : Byte) : (s.setFlagThenResult x r f).st = s.st := rfl
@[simp] theorem State.setFlagThenResult_fb (s : State) (x : Reg) (r f : Byte) : (s.setFlagThenResult x r f).fb = s.fb := rfl
@[simp] theorem State.setFlagThenResult_dirty (s : State) (x : Reg) (r f : Byte) : (s.setFlagThenResult x r f).dirty = s.dirty := rfl
@[simp] theorem State.setFlagThenResult_k (s : State) (x : Reg) (r f : Byte) : (s.setFlagThenResult x r f).k = s.k := rfl
@[simp] theorem State.setFlagThenResult_mem (s : State) (x : Reg) (r f : Byte) : (s.setFlagThenResult x r f).mem = s.mem := rfl
@[simp] theorem State.setFlagThenResult_opc (s : State) (x : Reg) (r f : Byte) : (s.setFlagThenResult x r f).opc = s.opc := rfl
@[simp] theorem State.setFlagThenResult_fault (s : State) (x : Reg) (r f : Byte) : (s.setFlagThenResult x r f).fault = s.fault := rfl
@[simp] theorem State.setFlagThenResult_draws (s : State) (x : Reg) (r f : Byte) : (s.setFlagThenResult x r f).draws = s.draws := rfl

/-! ## hostReset -/

@[simp] theorem State.hostReset_v (s : State) : (s.hostReset).v = State.reset.v := rfl
@[simp] theorem State.hostReset_pc (s : State) : (s.hostReset).pc = State.reset.pc := rfl
@[simp] theorem State.hostReset_i (s : State) : (s.hostReset).i = State.reset.i := rfl
@[simp] theorem State.hostReset_stk (s : State) : (s.hostReset).stk = State.reset.stk := rfl
@[simp] theorem State.hostReset_sp (s : State) : (s.hostReset).sp = State.reset.sp := rfl
@[simp] theorem State.hostReset_dt (s : State) : (s.hostReset).dt = State.reset.dt := rfl
@[simp] theorem State.hostReset_st (s : State) : (s.hostReset).st = State.reset.st := rfl
@[simp] theorem State.hostReset_fb (s : State) : (s.hostReset).fb = State.reset.fb := rfl
@[simp] theorem State.hostReset_dirty (s : State) : (s.hostReset).dirty = State.reset.dirty := rfl
@[simp] theorem State.hostReset_k (s : State) : (s.hostReset).k = State.reset.k := rfl
@[simp] theorem State.hostReset_mem (s : State) : (s.hostReset).mem = State.reset.mem := rfl
@[simp] theorem State.hostReset_opc (s : State) : (s.hostReset).opc = State.reset.opc := rfl
@[simp] theorem State.hostReset_fault (s : State) : (s.hostReset).fault = State.reset.fault := rfl
@[simp] theorem State.hostReset_draws (s : State) : (s.hostReset).draws = s.draws := rfl

/-! ## keySet -/

@[simp] theorem State.keySet_v (s : State) (key : Reg) (level : Bool) : (s.keySet key level).v = s.v := rfl
@[simp] theorem State.keySet_pc (s : State) (key : Reg) (level : Bool) : (s.keySet key level).pc = s.pc := rfl
@[simp] theorem State.keySet_i (s : State) (key : Reg) (level : Bool) : (s.keySet key level).i = s.i := rfl
@[simp] theorem State.keySet_stk (s : State) (key : Reg) (level : Bool) : (s.keySet key level).stk = s.stk := rfl
@[simp] theorem State.keySet_sp (s : State) (key : Reg) (level : Bool) : (s.keySet key level).sp = s.sp := rfl
@[simp] theorem State.keySet_dt (s : State) (key : Reg) (level : Bool) : (s.keySet key level).dt = s.dt := rfl
@[simp] theorem State.keySet_st (s : State) (key : Reg) (level : Bool) : (s.keySet key level).st = s.st := rfl
@[simp] theorem State.keySet_fb (s : State) (key : Reg) (level : Bool) : (s.keySet key level).fb = s.fb := rfl
@[simp] theorem State.keySet_dirty (s : State) (key : Reg) (level : Bool) : (s.keySet key level).dirty = s.dirty := rfl
@[simp] theorem State.keySet_k (s : State) (key : Reg) (level : Bool) : (s.keySet key level).k = s.k.set key level := rfl
@[simp] theorem State.keySet_mem (s : State) (key : Reg) (level : Bool) : (s.keySet key level).mem = s.mem := rfl
@[simp] theorem State.keySet_opc (s : State) (key : Reg) (level : Bool) : (s.keySet key level).opc = s.opc := rfl
@[simp] theorem State.keySet_fault (s : State) (key : Reg) (level : Bool) : (s.keySet key level).fault = s.fault := rfl
@[simp] theorem State.keySet_draws (s : State) (key : Reg) (level : Bool) : (s.keySet key level).draws = s.draws := rfl

/-! ## dirtyClear -/

@[simp] theorem State.dirtyClear_v (s : State) : (s.dirtyClear).v = s.v := rfl
@[simp] theorem State.dirtyClear_pc (s : State) : (s.dirtyClear).pc = s.pc := rfl
@[simp] theorem State.dirtyClear_i (s : State) : (s.dirtyClear).i = s.i := rfl
@[simp] theorem State.dirtyClear_stk (s : State) : (s.dirtyClear).stk = s.stk := rfl
@[simp] theorem State.dirtyClear_sp (s : State) : (s.dirtyClear).sp = s.sp := rfl
@[simp] theorem State.dirtyClear_dt (s : State) : (s.dirtyClear).dt = s.dt := rfl
@[simp] theorem State.dirtyClear_st (s : State) : (s.dirtyClear).st = s.st := rfl
@[simp] theorem State.dirtyClear_fb (s : State) : (s.dirtyClear).fb = s.fb := rfl
@[simp] theorem State.dirtyClear_dirty (s : State) : (s.dirtyClear).dirty = false := rfl
@[simp] theorem State.dirtyClear_k (s : State) : (s.dirtyClear).k = s.k := rfl
@[simp] theorem State.dirtyClear_mem (s : State) : (s.dirtyClear).mem = s.mem := rfl
@[simp] theorem State.dirtyClear_opc (s : State) : (s.dirtyClear).opc = s.opc := rfl
@[simp] theorem State.dirtyClear_fault (s : State) : (s.dirtyClear).fault = s.fault := rfl
@[simp] theorem State.dirtyClear_draws (s : State) : (s.dirtyClear).draws = s.draws := rfl

/-! ## Reading a register after an update -/

/-- A register reads what was last written to it. -/
theorem State.reg_setReg (s : State) (x y : Reg) (b : Byte) :
    (s.setReg x b).reg y = if y = x then b else s.reg y := by
  simp only [State.reg, State.setReg, Fin.getElem_fin, Vector.getElem_set, Fin.ext_iff, eq_comm]

@[simp] theorem State.reg_setReg_self (s : State) (x : Reg) (b : Byte) : (s.setReg x b).reg x = b := by
  simp [State.reg_setReg]

theorem State.reg_setReg_ne (s : State) (x y : Reg) (b : Byte) (h : y ≠ x) : (s.setReg x b).reg y = s.reg y := by
  simp [State.reg_setReg, h]

@[simp] theorem State.reg_jump (s : State) (w : Word) (y : Reg) : (s.jump w).reg y = s.reg y := rfl
@[simp] theorem State.reg_advance (s : State) (y : Reg) : (s.advance).reg y = s.reg y := rfl
@[simp] theorem State.reg_skipIf (s : State) (c : Bool) (y : Reg) : (s.skipIf c).reg y = s.reg y := rfl
@[simp] theorem State.reg_raise (s : State) (kind : FaultKind) (y : Reg) : (s.raise kind).reg y = s.reg y := rfl
@[simp] theorem State.reg_tick (s : State) (y : Reg) : (s.tick).reg y = s.reg y := rfl
@[simp] theorem State.reg_latchOpc (s : State) (op : Word) (y : Reg) : (s.latchOpc op).reg y = s.reg y := rfl
@[simp] theorem State.reg_keySet (s : State) (key : Reg) (level : Bool) (y : Reg) : (s.keySet key level).reg y = s.reg y := rfl
@[simp] theorem State.reg_dirtyClear (s : State) (y : Reg) : (s.dirtyClear).reg y = s.reg y := rfl

/-- Result first, flag second: VF holds the flag, whatever `x` is (42_alu.md R143). -/
theorem State.reg_setResultThenFlag (s : State) (x y : Reg) (r f : Byte) :
    (s.setResultThenFlag x r f).reg y = if y = 15 then f else if y = x then r else s.reg y := by
  simp only [State.setResultThenFlag, vf, State.reg_setReg]

/-- Flag first, result second: `V[x]` holds the result, whatever `x` is (42_alu.md R143). -/
theorem State.reg_setFlagThenResult (s : State) (x y : Reg) (r f : Byte) :
    (s.setFlagThenResult x r f).reg y = if y = x then r else if y = 15 then f else s.reg y := by
  simp only [State.setFlagThenResult, vf, State.reg_setReg]

/-- The machine is halted exactly when the latch is not None (10_state.md R32). -/
theorem State.halted_iff (s : State) : s.halted = true ↔ s.fault ≠ none := by
  simp [State.halted, Option.isSome_iff_ne_none]

theorem State.not_halted (s : State) (h : s.fault = none) : s.halted = false := by
  simp [State.halted, h]

end Sys2Proof.Machine
end

