-- ==== Sys2Proof/Laws/Frame.lean ====
section
/-! SUPPORT. The frame of each named update, and how frames join (00_scope.md R10). -/

namespace Sys2Proof.Machine

theorem Part.same_refl (p : Part) (s : State) : p.same s s := by cases p <;> rfl

theorem Part.same_trans (p : Part) {s t u : State} (h1 : p.same s t) (h2 : p.same t u) : p.same s u := by
  cases p <;> exact Eq.trans h2 h1

theorem FrameExcept.refl (w : Part → Prop) (s : State) : FrameExcept w s s := fun p _ => p.same_refl s

theorem FrameExcept.trans {w : Part → Prop} {s t u : State} (h1 : FrameExcept w s t) (h2 : FrameExcept w t u) :
    FrameExcept w s u := fun p hp => p.same_trans (h1 p hp) (h2 p hp)

theorem FrameExcept.mono {w w' : Part → Prop} {s t : State} (h : FrameExcept w s t) (hw : ∀ p, w p → w' p) :
    FrameExcept w' s t := fun p hp => h p fun hwp => hp (hw p hwp)

theorem frame_jump (s : State) (target : Word) : FrameExcept (fun p => p = .pc) s (s.jump target) := by
  intro p hp
  cases p <;> first | rfl | exact absurd rfl hp

theorem frame_advance (s : State) : FrameExcept (fun p => p = .pc) s s.advance := frame_jump s _

theorem frame_skipIf (s : State) (c : Bool) : FrameExcept (fun p => p = .pc) s (s.skipIf c) := frame_jump s _

theorem frame_setReg (s : State) (x : Reg) (b : Byte) : FrameExcept (fun p => p = .reg x) s (s.setReg x b) := by
  intro p hp
  cases p with
  | reg y => exact State.reg_setReg_ne s x y b fun h => hp (by rw [h])
  | _ => rfl

theorem frame_raise (s : State) (kind : FaultKind) : FrameExcept (fun p => p = .fault) s (s.raise kind) := by
  intro p hp
  cases p <;> first | rfl | exact absurd rfl hp

theorem frame_tick (s : State) : FrameExcept (fun p => p = .dt ∨ p = .st) s s.tick := by
  intro p hp
  cases p <;> first | rfl | exact absurd (by simp) hp

theorem frame_latchOpc (s : State) (op : Word) : FrameExcept (fun p => p = .opc) s (s.latchOpc op) := by
  intro p hp
  cases p <;> first | rfl | exact absurd rfl hp

theorem frame_setResultThenFlag (s : State) (x : Reg) (r f : Byte) :
    FrameExcept (fun p => p = .reg x ∨ p = .reg 15) s (s.setResultThenFlag x r f) :=
  ((frame_setReg s x r).mono fun _ h => .inl h).trans ((frame_setReg _ vf f).mono fun _ h => .inr h)

theorem frame_setFlagThenResult (s : State) (x : Reg) (r f : Byte) :
    FrameExcept (fun p => p = .reg x ∨ p = .reg 15) s (s.setFlagThenResult x r f) :=
  ((frame_setReg s vf f).mono fun _ h => .inr h).trans ((frame_setReg _ x r).mono fun _ h => .inl h)

end Sys2Proof.Machine
end

