-- ==== Sys2Proof/Laws/Regs.lean ====
section
/-! SUPPORT. The register block moves of Fx55 and Fx65 (43_index_memory.md R164, R165). -/

namespace Sys2Proof.Machine

/-- A filled register holds its byte, every other register what it held. -/
theorem Regs.getElem_fill (v : Regs) (bytes : List Byte) (j r : Nat) (hr : r < 16) (hj : j + bytes.length ≤ 16) :
    (Regs.fill v bytes j)[r] = if h : j ≤ r ∧ r < j + bytes.length then bytes[r - j]'(by omega) else v[r] := by
  induction bytes generalizing v j with
  | nil => simp only [Regs.fill, List.length_nil]; split <;> first | omega | rfl
  | cons b bs ih =>
    simp only [List.length_cons] at hj ⊢
    rw [Regs.fill, ih _ _ (by omega), Vector.getElem_setIfInBounds]
    by_cases h1 : j + 1 ≤ r ∧ r < j + 1 + bs.length
    · have h2 : j ≤ r ∧ r < j + (bs.length + 1) := by omega
      rw [dif_pos h1, dif_pos h2]
      have h3 : r - j = (r - (j + 1)) + 1 := by omega
      simp only [h3, List.getElem_cons_succ]
    · rw [dif_neg h1]
      by_cases h4 : j = r
      · subst h4; simp
      · rw [if_neg h4, dif_neg (by omega)]

@[simp] theorem Regs.length_upTo (v : Regs) (x : Reg) : (v.upTo x).length = x.val + 1 := by
  simp [Regs.upTo]

/-- The j-th byte Fx55 stores is `V[j]`. -/
theorem Regs.getElem_upTo (v : Regs) (x : Reg) (j : Nat) (h : j < (v.upTo x).length) :
    (v.upTo x)[j] = v[j]'(by rw [Regs.length_upTo] at h; omega) := by
  simp [Regs.upTo]

end Sys2Proof.Machine
end

