-- ==== Sys2Proof/Laws/Ops.lean ====
section
/-! SUPPORT. What each shared operation can answer, said once. -/

namespace Sys2Proof.Machine

/-! ## Program counter -/

/-- Where a word can be fetched, the sums on `pc` are plain integers (40_step_cycle.md R95). -/
theorem State.advance_toNat (s : State) (h : s.fetchable) : s.advance.pc.toNat = s.pc.toNat + 2 := by
  rw [State.advance_pc]; bv_omega

theorem State.skipIf_toNat (s : State) (c : Bool) (h : s.fetchable) :
    (s.skipIf c).pc.toNat = if c = true then s.pc.toNat + 4 else s.pc.toNat + 2 := by
  simp only [State.skipIf_pc]
  split <;> bv_omega

theorem zext16_toNat (nnn : Addr) : (zext16 nnn).toNat = nnn.toNat := by
  simp only [zext16, BitVec.toNat_setWidth]; omega

theorem byte16_toNat (b : Byte) : (byte16 b).toNat = b.toNat := by
  simp only [byte16, BitVec.toNat_setWidth]; omega

/-! ## Stack (10_state.md R25) -/

/-- A push answers exactly where fewer than sixteen entries are in use. -/
theorem State.push_of_lt (s : State) (h : s.sp.val < 16) :
    s.push = some { s with stk := s.stk.set s.sp.val s.pc, sp := ⟨s.sp.val + 1, by omega⟩ } := by
  simp [State.push, h]

theorem State.push_full (s : State) (h : s.sp.val = 16) : s.push = none := by simp [State.push, h]

/-- A pop answers exactly where an entry is in use. -/
theorem State.pop_of_pos (s : State) (h : 0 < s.sp.val) :
    s.pop = some (s.stk[s.sp.val - 1]'(by omega), { s with sp := ⟨s.sp.val - 1, by omega⟩ }) := by
  simp [State.pop, h]

theorem State.pop_empty (s : State) (h : s.sp.val = 0) : s.pop = none := by simp [State.pop, h]

/-! ## Digits and keys -/

theorem digitOf_small (b : Byte) (h : b.toNat ≤ 15) : digitOf b = some ⟨b.toNat, by omega⟩ := by
  have : b.toNat < 16 := by omega
  simp [digitOf, this]

theorem digitOf_large (b : Byte) (h : 15 < b.toNat) : digitOf b = none := by
  have : ¬ b.toNat < 16 := by omega
  simp [digitOf, this]

/-- No key of the list is pressed. -/
theorem firstPressed_none (k : Vector Bool 16) (keys : List Reg) (h : ∀ key ∈ keys, k[key] = false) :
    firstPressed k keys = none := by
  induction keys with
  | nil => rfl
  | cons key rest ih =>
    rw [firstPressed, if_neg (by simp [h key])]
    exact ih fun j hj => h j (by simp [hj])

/-- In a list in rising order, the key found is pressed and every pressed key of the list is at least as high. -/
theorem firstPressed_some (k : Vector Bool 16) (keys : List Reg) (hs : keys.Pairwise (· < ·)) (key : Reg)
    (h : firstPressed k keys = some key) : k[key] = true ∧ ∀ j ∈ keys, k[j] = true → key ≤ j := by
  induction keys with
  | nil => simp [firstPressed] at h
  | cons first rest ih =>
    obtain ⟨hlt, hrest⟩ := List.pairwise_cons.mp hs
    rw [firstPressed] at h
    split at h
    · rename_i hk
      obtain rfl : first = key := by simpa using h
      refine ⟨hk, fun j hj _ => ?_⟩
      rcases List.mem_cons.mp hj with rfl | hj
      · exact Nat.le_refl _
      · exact Nat.le_of_lt (hlt j hj)
    · rename_i hk
      refine ⟨(ih hrest h).1, fun j hj hj' => ?_⟩
      rcases List.mem_cons.mp hj with rfl | hj
      · exact absurd hj' hk
      · exact (ih hrest h).2 j hj hj'

theorem mem_allKeys (key : Reg) : key ∈ allKeys := by revert key; decide

/-- No key down: nothing is found. -/
theorem State.lowestKey_none (s : State) (h : ∀ key : Reg, s.k[key] = false) : s.lowestKey = none :=
  firstPressed_none _ _ fun key _ => h key

/-- Some key down: the lowest-numbered pressed key is found (45_keys_timers.md R192). -/
theorem State.lowestKey_some (s : State) (key : Reg) (h : s.k[key] = true) :
    ∃ j, s.lowestKey = some j ∧ s.k[j] = true ∧ ∀ i : Reg, s.k[i] = true → j ≤ i := by
  cases hf : s.lowestKey with
  | none =>
    exfalso
    have hn : ∀ (keys : List Reg), key ∈ keys → firstPressed s.k keys ≠ none := by
      intro keys
      induction keys with
      | nil => simp
      | cons first rest ih =>
        intro hm
        rw [firstPressed]
        split
        · simp
        · rename_i hk
          rcases List.mem_cons.mp hm with rfl | hm
          · exact absurd h hk
          · exact ih hm
    exact hn allKeys (mem_allKeys key) hf
  | some j =>
    have := firstPressed_some s.k allKeys (by decide) j hf
    exact ⟨j, rfl, this.1, fun i hi => this.2 i (mem_allKeys i) hi⟩

/-! ## Timers (40_step_cycle.md R97) -/

theorem tickDown_toNat (t : Byte) : (tickDown t).toNat = t.toNat - 1 := by
  unfold tickDown
  split
  · rename_i h; subst h; rfl
  · rename_i h
    have : t.toNat ≠ 0 := fun h0 => h (BitVec.eq_of_toNat_eq (by simpa using h0))
    have := t.isLt
    bv_omega

/-! ## Fetch (40_step_cycle.md R92) -/

theorem State.fetch_of_fetchable (s : State) (h : s.fetchable) :
    s.fetch = some (s.mem.read s.pc.toNat, s.mem.read (s.pc.toNat + 1)) := by
  have : rangeOk s.pc.toNat 2 = true := by rw [rangeOk_iff]; omega
  simp [State.fetch, this]

theorem State.fetch_none (s : State) (h : ¬ s.fetchable) : s.fetch = none := by
  have : rangeOk s.pc.toNat 2 = false := by rw [rangeOk_eq_false]; omega
  simp [State.fetch, this]

end Sys2Proof.Machine
end

