-- ==== Sys2Proof/Laws/Exec.lean ====
section
/-! SUPPORT. The instructions that check something first: what each answers where the check passes and where it fails, with the
check on plain integers as the spec writes it (20_memory.md R58, 60_exceptions.md R212 to R214). -/

namespace Sys2Proof.Machine

theorem exec_ret_ok (s : State) (h : 0 < s.sp.val) : exec .ret s =
    .next (({ s with sp := ⟨s.sp.val - 1, by omega⟩ } : State).jump (s.stk[s.sp.val - 1]'(by omega) + 2)) := by
  simp only [exec, execRet, s.pop_of_pos h]

theorem exec_ret_fault (s : State) (h : s.sp.val = 0) : exec .ret s = .next (s.raise .stackUnderflow) := by
  simp only [exec, execRet, s.pop_empty h]

theorem exec_call_ok (nnn : Addr) (s : State) (h : s.sp.val < 16) : exec (.call nnn) s =
    .next (({ s with stk := s.stk.set s.sp.val s.pc, sp := ⟨s.sp.val + 1, by omega⟩ } : State).jump (zext16 nnn)) := by
  simp only [exec, execCall, s.push_of_lt h]

theorem exec_call_fault (nnn : Addr) (s : State) (h : s.sp.val = 16) :
    exec (.call nnn) s = .next (s.raise .stackOverflow) := by
  simp only [exec, execCall, s.push_full h]

theorem exec_addI_ok (x : Reg) (s : State) (h : s.i.toNat + (s.reg x).toNat < 4096) :
    exec (.addI x) s = .next ({ s with i := s.i + byte16 (s.reg x) } : State).advance := by
  have hr : rangeOk (s.base + (s.reg x).toNat) 1 = true := by rw [rangeOk_iff]; exact h
  simp only [exec, execAddI, hr, if_true]

theorem exec_addI_fault (x : Reg) (s : State) (h : 4096 ≤ s.i.toNat + (s.reg x).toNat) :
    exec (.addI x) s = .next (s.raise .outOfBounds) := by
  have hr : rangeOk (s.base + (s.reg x).toNat) 1 = false := by rw [rangeOk_eq_false]; exact Nat.lt_succ_of_le h
  simp only [exec, execAddI, hr, Bool.false_eq_true, if_false]

theorem exec_ldF_ok (x : Reg) (s : State) (h : (s.reg x).toNat ≤ 15) :
    exec (.ldF x) s = .next ({ s with i := BitVec.ofNat 16 (5 * (s.reg x).toNat) } : State).advance := by
  simp only [exec, execLdF, digitOf_small _ h]

theorem exec_ldF_fault (x : Reg) (s : State) (h : 15 < (s.reg x).toNat) :
    exec (.ldF x) s = .next (s.raise .outOfBounds) := by
  simp only [exec, execLdF, digitOf_large _ h]

theorem exec_ldB_ok (x : Reg) (s : State) (h : s.i.toNat + 2 < 4096) :
    exec (.ldB x) s = .next ({ s with mem := s.mem.writeBytes s.i.toNat (bcd (s.reg x)) } : State).advance := by
  have hr : rangeOk s.base 3 = true := by rw [rangeOk_iff]; exact h
  simp only [exec, execLdB, hr, if_true]; rfl

theorem exec_ldB_fault (x : Reg) (s : State) (h : 4096 ≤ s.i.toNat + 2) :
    exec (.ldB x) s = .next (s.raise .outOfBounds) := by
  have hr : rangeOk s.base 3 = false := by rw [rangeOk_eq_false]; exact Nat.lt_succ_of_le h
  simp only [exec, execLdB, hr, Bool.false_eq_true, if_false]

theorem exec_stRegs_ok (x : Reg) (s : State) (h : s.i.toNat + x.val < 4096) :
    exec (.stRegs x) s = .next ({ s with mem := s.mem.writeBytes s.i.toNat (s.v.upTo x) } : State).advance := by
  have hr : rangeOk s.base (countUpTo x) = true := by rw [rangeOk_iff]; exact h
  simp only [exec, execStRegs, hr, if_true]; rfl

theorem exec_stRegs_fault (x : Reg) (s : State) (h : 4096 ≤ s.i.toNat + x.val) :
    exec (.stRegs x) s = .next (s.raise .outOfBounds) := by
  have hr : rangeOk s.base (countUpTo x) = false := by rw [rangeOk_eq_false]; exact Nat.lt_succ_of_le h
  simp only [exec, execStRegs, hr, Bool.false_eq_true, if_false]

theorem exec_ldRegs_ok (x : Reg) (s : State) (h : s.i.toNat + x.val < 4096) : exec (.ldRegs x) s =
    .next ({ s with v := Regs.fill s.v (s.mem.readBytes s.i.toNat (x.val + 1)) 0 } : State).advance := by
  have hr : rangeOk s.base (countUpTo x) = true := by rw [rangeOk_iff]; exact h
  simp only [exec, execLdRegs, hr, if_true]; rfl

theorem exec_ldRegs_fault (x : Reg) (s : State) (h : 4096 ≤ s.i.toNat + x.val) :
    exec (.ldRegs x) s = .next (s.raise .outOfBounds) := by
  have hr : rangeOk s.base (countUpTo x) = false := by rw [rangeOk_eq_false]; exact Nat.lt_succ_of_le h
  simp only [exec, execLdRegs, hr, Bool.false_eq_true, if_false]

theorem exec_drw_ok (x y : Reg) (n : Nibble) (s : State) (h : s.i.toNat + n.toNat ≤ 4096) : exec (.drw x y n) s =
    .next (({ s with fb := (drawBlit x y n s).fb, dirty := true } : State).setReg vf
      (flagByte (drawBlit x y n s).collision)).advance := by
  have hr : rangeOk s.base n.toNat = true := by rw [rangeOk_iff]; exact h
  simp only [exec, execDrw, hr, if_true]

theorem exec_drw_fault (x y : Reg) (n : Nibble) (s : State) (h : 4096 < s.i.toNat + n.toNat) :
    exec (.drw x y n) s = .next (s.raise .outOfBounds) := by
  have hr : rangeOk s.base n.toNat = false := by rw [rangeOk_eq_false]; exact h
  simp only [exec, execDrw, hr, Bool.false_eq_true, if_false]

theorem exec_skp_ok (x key : Reg) (s : State) (h : (s.reg x).toNat = key.val) :
    exec (.skp x) s = .next (s.skipIf s.k[key]) := by
  have hd : digitOf (s.reg x) = some key := by
    rw [digitOf_small _ (by omega)]; exact congrArg some (Fin.ext h)
  simp only [exec, execSkp, hd]

theorem exec_skp_fault (x : Reg) (s : State) (h : 15 < (s.reg x).toNat) :
    exec (.skp x) s = .next (s.raise .outOfBounds) := by
  simp only [exec, execSkp, digitOf_large _ h]

theorem exec_sknp_ok (x key : Reg) (s : State) (h : (s.reg x).toNat = key.val) :
    exec (.sknp x) s = .next (s.skipIf (!s.k[key])) := by
  have hd : digitOf (s.reg x) = some key := by
    rw [digitOf_small _ (by omega)]; exact congrArg some (Fin.ext h)
  simp only [exec, execSknp, hd]

theorem exec_sknp_fault (x : Reg) (s : State) (h : 15 < (s.reg x).toNat) :
    exec (.sknp x) s = .next (s.raise .outOfBounds) := by
  simp only [exec, execSknp, digitOf_large _ h]

/-- Fx0A with the lowest pressed key known (45_keys_timers.md R192). -/
theorem exec_ldVxK_pressed (x key : Reg) (s : State) (h : s.lowestKey = some key) :
    exec (.ldVxK x) s = .next (s.setReg x (BitVec.ofNat 8 key.val)).advance := by
  simp only [exec, execLdVxK, h]

theorem exec_ldVxK_waiting (x : Reg) (s : State) (h : ∀ key : Reg, s.k[key] = false) :
    exec (.ldVxK x) s = .next s := by
  simp only [exec, execLdVxK, s.lowestKey_none h]

end Sys2Proof.Machine
end

