-- ==== Sys2Proof/Laws/PerInstr.lean ====
section
/-! SUPPORT. Per instruction: the word of an instruction lies in the opcode-map row of that instruction's mnemonic
(30_encoding.md R75). -/

namespace Sys2Proof

/-- The mask of format NNN keeps the family nibble. -/
theorem formNNN_and (f : Nibble) (nnn : Addr) : formNNN f nnn &&& 0xF000#16 = f ++ 0#12 := by
  apply BitVec.eq_of_getLsbD_eq
  intro j hj
  simp only [formNNN, BitVec.getLsbD_and, BitVec.getLsbD_append]
  interval_cases j <;> simp

/-- The mask of format XKK keeps the family nibble. -/
theorem formXKK_and (f : Nibble) (x : Reg) (kk : Byte) : formXKK f x kk &&& 0xF000#16 = f ++ 0#12 := by
  apply BitVec.eq_of_getLsbD_eq
  intro j hj
  simp only [formXKK, BitVec.getLsbD_and, BitVec.getLsbD_append]
  interval_cases j <;> simp

/-- The mask of format XSS keeps the family nibble and the low byte. -/
theorem formXSS_and (f : Nibble) (x : Reg) (kk : Byte) : formXKK f x kk &&& 0xF0FF#16 = (f ++ 0#4 ++ kk : BitVec 16) := by
  apply BitVec.eq_of_getLsbD_eq
  intro j hj
  simp only [formXKK, BitVec.getLsbD_and, BitVec.getLsbD_append]
  interval_cases j <;> simp

/-- The mask of format XYN keeps the family nibble. -/
theorem formXYN_and (f : Nibble) (x y : Reg) (n : Nibble) : formXYN f x y n &&& 0xF000#16 = f ++ 0#12 := by
  apply BitVec.eq_of_getLsbD_eq
  intro j hj
  simp only [formXYN, BitVec.getLsbD_and, BitVec.getLsbD_append]
  interval_cases j <;> simp

/-- The mask of format XYS keeps the family nibble and the low nibble. -/
theorem formXYS_and (f : Nibble) (x y : Reg) (n : Nibble) :
    formXYN f x y n &&& 0xF00F#16 = (f ++ 0#4 ++ 0#4 ++ n : BitVec 16) := by
  apply BitVec.eq_of_getLsbD_eq
  intro j hj
  simp only [formXYN, BitVec.getLsbD_and, BitVec.getLsbD_append]
  interval_cases j <;> simp

/-- A row of the map whose masked value is as the row says covers the word. -/
theorem covers_of_and {op mask value m : Word} (name : String) (h : op &&& mask = m) (hv : m = value) :
    (OpcodeRow.mk name mask value).covers op = true := by
  simp [OpcodeRow.covers, h, hv]

end Sys2Proof

namespace Sys2Proof.Laws.RowOfWord

/-- The encoding of the instruction lies in the row of its own mnemonic. -/
def Statement (instr : Instr) : Prop :=
  ∃ row ∈ opcodeMap, row.mnemonic = instr.mnemonic ∧ row.covers (encode instr) = true

theorem cls : Statement .cls :=
  ⟨⟨"CLS", 0xFFFF, 0x00E0⟩, by decide, rfl, by decide⟩

theorem ret : Statement .ret :=
  ⟨⟨"RET", 0xFFFF, 0x00EE⟩, by decide, rfl, by decide⟩

theorem jp (nnn : Addr) : Statement (.jp nnn) :=
  ⟨⟨"JP_nnn", 0xF000, 0x1000⟩, by decide, rfl, covers_of_and _ (formNNN_and _ _) (by decide)⟩

theorem call (nnn : Addr) : Statement (.call nnn) :=
  ⟨⟨"CALL_nnn", 0xF000, 0x2000⟩, by decide, rfl, covers_of_and _ (formNNN_and _ _) (by decide)⟩

theorem seImm (x : Reg) (kk : Byte) : Statement (.seImm x kk) :=
  ⟨⟨"SE_Vx__kk", 0xF000, 0x3000⟩, by decide, rfl, covers_of_and _ (formXKK_and _ _ _) (by decide)⟩

theorem sneImm (x : Reg) (kk : Byte) : Statement (.sneImm x kk) :=
  ⟨⟨"SNE_Vx__kk", 0xF000, 0x4000⟩, by decide, rfl, covers_of_and _ (formXKK_and _ _ _) (by decide)⟩

theorem seReg (x y : Reg) : Statement (.seReg x y) :=
  ⟨⟨"SE_Vx__Vy", 0xF00F, 0x5000⟩, by decide, rfl, covers_of_and _ (formXYS_and _ _ _ _) (by decide)⟩

theorem ldImm (x : Reg) (kk : Byte) : Statement (.ldImm x kk) :=
  ⟨⟨"LD_Vx__kk", 0xF000, 0x6000⟩, by decide, rfl, covers_of_and _ (formXKK_and _ _ _) (by decide)⟩

theorem addImm (x : Reg) (kk : Byte) : Statement (.addImm x kk) :=
  ⟨⟨"ADD_Vx__kk", 0xF000, 0x7000⟩, by decide, rfl, covers_of_and _ (formXKK_and _ _ _) (by decide)⟩

theorem ldReg (x y : Reg) : Statement (.ldReg x y) :=
  ⟨⟨"LD_Vx__Vy", 0xF00F, 0x8000⟩, by decide, rfl, covers_of_and _ (formXYS_and _ _ _ _) (by decide)⟩

theorem orReg (x y : Reg) : Statement (.orReg x y) :=
  ⟨⟨"OR_Vx__Vy", 0xF00F, 0x8001⟩, by decide, rfl, covers_of_and _ (formXYS_and _ _ _ _) (by decide)⟩

theorem andReg (x y : Reg) : Statement (.andReg x y) :=
  ⟨⟨"AND_Vx__Vy", 0xF00F, 0x8002⟩, by decide, rfl, covers_of_and _ (formXYS_and _ _ _ _) (by decide)⟩

theorem xorReg (x y : Reg) : Statement (.xorReg x y) :=
  ⟨⟨"XOR_Vx__Vy", 0xF00F, 0x8003⟩, by decide, rfl, covers_of_and _ (formXYS_and _ _ _ _) (by decide)⟩

theorem addReg (x y : Reg) : Statement (.addReg x y) :=
  ⟨⟨"ADD_Vx__Vy", 0xF00F, 0x8004⟩, by decide, rfl, covers_of_and _ (formXYS_and _ _ _ _) (by decide)⟩

theorem subReg (x y : Reg) : Statement (.subReg x y) :=
  ⟨⟨"SUB_Vx__Vy", 0xF00F, 0x8005⟩, by decide, rfl, covers_of_and _ (formXYS_and _ _ _ _) (by decide)⟩

theorem shr (x y : Reg) : Statement (.shr x y) :=
  ⟨⟨"SHR_Vx", 0xF00F, 0x8006⟩, by decide, rfl, covers_of_and _ (formXYS_and _ _ _ _) (by decide)⟩

theorem subnReg (x y : Reg) : Statement (.subnReg x y) :=
  ⟨⟨"SUBN_Vx__Vy", 0xF00F, 0x8007⟩, by decide, rfl, covers_of_and _ (formXYS_and _ _ _ _) (by decide)⟩

theorem shl (x y : Reg) : Statement (.shl x y) :=
  ⟨⟨"SHL_Vx", 0xF00F, 0x800E⟩, by decide, rfl, covers_of_and _ (formXYS_and _ _ _ _) (by decide)⟩

theorem sneReg (x y : Reg) : Statement (.sneReg x y) :=
  ⟨⟨"SNE_Vx__Vy", 0xF00F, 0x9000⟩, by decide, rfl, covers_of_and _ (formXYS_and _ _ _ _) (by decide)⟩

theorem ldI (nnn : Addr) : Statement (.ldI nnn) :=
  ⟨⟨"LD_I__nnn", 0xF000, 0xA000⟩, by decide, rfl, covers_of_and _ (formNNN_and _ _) (by decide)⟩

theorem jpV0 (nnn : Addr) : Statement (.jpV0 nnn) :=
  ⟨⟨"JP_V0__nnn", 0xF000, 0xB000⟩, by decide, rfl, covers_of_and _ (formNNN_and _ _) (by decide)⟩

theorem rnd (x : Reg) (kk : Byte) : Statement (.rnd x kk) :=
  ⟨⟨"RND_Vx__kk", 0xF000, 0xC000⟩, by decide, rfl, covers_of_and _ (formXKK_and _ _ _) (by decide)⟩

theorem drw (x y : Reg) (n : Nibble) : Statement (.drw x y n) :=
  ⟨⟨"DRW_Vx__Vy__n", 0xF000, 0xD000⟩, by decide, rfl, covers_of_and _ (formXYN_and _ _ _ _) (by decide)⟩

theorem skp (x : Reg) : Statement (.skp x) :=
  ⟨⟨"SKP_Vx", 0xF0FF, 0xE09E⟩, by decide, rfl, covers_of_and _ (formXSS_and _ _ _) (by decide)⟩

theorem sknp (x : Reg) : Statement (.sknp x) :=
  ⟨⟨"SKNP_Vx", 0xF0FF, 0xE0A1⟩, by decide, rfl, covers_of_and _ (formXSS_and _ _ _) (by decide)⟩

theorem ldVxDt (x : Reg) : Statement (.ldVxDt x) :=
  ⟨⟨"LD_Vx__DT", 0xF0FF, 0xF007⟩, by decide, rfl, covers_of_and _ (formXSS_and _ _ _) (by decide)⟩

theorem ldVxK (x : Reg) : Statement (.ldVxK x) :=
  ⟨⟨"LD_Vx__K", 0xF0FF, 0xF00A⟩, by decide, rfl, covers_of_and _ (formXSS_and _ _ _) (by decide)⟩

theorem ldDtVx (x : Reg) : Statement (.ldDtVx x) :=
  ⟨⟨"LD_DT__Vx", 0xF0FF, 0xF015⟩, by decide, rfl, covers_of_and _ (formXSS_and _ _ _) (by decide)⟩

theorem ldStVx (x : Reg) : Statement (.ldStVx x) :=
  ⟨⟨"LD_ST__Vx", 0xF0FF, 0xF018⟩, by decide, rfl, covers_of_and _ (formXSS_and _ _ _) (by decide)⟩

theorem addI (x : Reg) : Statement (.addI x) :=
  ⟨⟨"ADD_I__Vx", 0xF0FF, 0xF01E⟩, by decide, rfl, covers_of_and _ (formXSS_and _ _ _) (by decide)⟩

theorem ldF (x : Reg) : Statement (.ldF x) :=
  ⟨⟨"LD_F__Vx", 0xF0FF, 0xF029⟩, by decide, rfl, covers_of_and _ (formXSS_and _ _ _) (by decide)⟩

theorem ldB (x : Reg) : Statement (.ldB x) :=
  ⟨⟨"LD_B__Vx", 0xF0FF, 0xF033⟩, by decide, rfl, covers_of_and _ (formXSS_and _ _ _) (by decide)⟩

theorem stRegs (x : Reg) : Statement (.stRegs x) :=
  ⟨⟨"LD__I___Vx", 0xF0FF, 0xF055⟩, by decide, rfl, covers_of_and _ (formXSS_and _ _ _) (by decide)⟩

theorem ldRegs (x : Reg) : Statement (.ldRegs x) :=
  ⟨⟨"LD_Vx___I", 0xF0FF, 0xF065⟩, by decide, rfl, covers_of_and _ (formXSS_and _ _ _) (by decide)⟩

end Sys2Proof.Laws.RowOfWord
end

