-- ==== Sys2Proof/Laws/Step.lean ====
section
/-! SUPPORT. What a step can do, said once (40_step_cycle.md R90). -/

namespace Sys2Proof.Machine

/-- A halted machine answers itself. -/
theorem step_of_halted (s : State) (h : s.halted = true) : step s = .next s := by simp [step, h]

/-- A machine with nothing to fetch takes the fetch's fault. -/
theorem step_of_no_fetch (s : State) (h : s.fault = none) (hf : ¬ s.fetchable) : step s = .next (s.raise .outOfBounds) := by
  simp [step, s.not_halted h, s.fetch_none hf]

/-- A fetched word that is no instruction is a decode fault. -/
theorem step_of_illegal (s : State) (h : s.fault = none) (hf : s.fetchable) (r : Reject)
    (hd : decode s.wordAtPc = .error r) : step s = .next (s.raise .decodeError) := by
  unfold State.wordAtPc at hd
  simp [step, s.not_halted h, s.fetch_of_fetchable hf, decodeBytes, hd]

/-- A fetched instruction runs, and the step ends as `endStep` says. -/
theorem step_of_instr (s t : State) (h : s.fault = none) (hf : s.fetchable) (instr : Instr)
    (hd : decode s.wordAtPc = .ok instr) (he : exec instr (s.latchOpc s.wordAtPc) = .next t) :
    step s = .next (s.endStep t) := by
  unfold State.wordAtPc at hd he
  simp [step, s.not_halted h, s.fetch_of_fetchable hf, decodeBytes, hd, he]

/-- An instruction always answers a next state. -/
theorem exec_next (instr : Instr) (s : State) : ∃ t, exec instr s = .next t := by
  cases instr <;> (try exact ⟨_, rfl⟩)
  case ret => simp only [exec, execRet]; split <;> exact ⟨_, rfl⟩
  case call => simp only [exec, execCall]; split <;> exact ⟨_, rfl⟩
  case drw => simp only [exec, execDrw]; split <;> exact ⟨_, rfl⟩
  case skp => simp only [exec, execSkp]; split <;> exact ⟨_, rfl⟩
  case sknp => simp only [exec, execSknp]; split <;> exact ⟨_, rfl⟩
  case ldVxK => simp only [exec, execLdVxK]; split <;> exact ⟨_, rfl⟩
  case addI => simp only [exec, execAddI]; split <;> exact ⟨_, rfl⟩
  case ldF => simp only [exec, execLdF]; split <;> exact ⟨_, rfl⟩
  case ldB => simp only [exec, execLdB]; split <;> exact ⟨_, rfl⟩
  case stRegs => simp only [exec, execStRegs]; split <;> exact ⟨_, rfl⟩
  case ldRegs => simp only [exec, execLdRegs]; split <;> exact ⟨_, rfl⟩

/-- The four ways a step answers a next state. -/
theorem step_cases (s t : State) (h : step s = .next t) :
    (s.fault ≠ none ∧ t = s) ∨
    (s.fault = none ∧ ¬ s.fetchable ∧ t = s.raise .outOfBounds) ∨
    (s.fault = none ∧ s.fetchable ∧ (∃ r, decode s.wordAtPc = .error r) ∧ t = s.raise .decodeError) ∨
    (s.fault = none ∧ s.fetchable ∧ ∃ instr u, decode s.wordAtPc = .ok instr ∧
      exec instr (s.latchOpc s.wordAtPc) = .next u ∧ t = s.endStep u) := by
  by_cases hh : s.fault = none
  · right
    by_cases hf : s.fetchable
    · right
      cases hd : decode s.wordAtPc with
      | error r =>
        rw [step_of_illegal s hh hf r hd] at h
        exact .inl ⟨hh, hf, ⟨r, rfl⟩, by simpa using h.symm⟩
      | ok instr =>
        obtain ⟨u, hu⟩ := exec_next instr (s.latchOpc s.wordAtPc)
        rw [step_of_instr s u hh hf instr hd hu] at h
        exact .inr ⟨hh, hf, instr, u, rfl, hu, by simpa using h.symm⟩
    · rw [step_of_no_fetch s hh hf] at h
      exact .inl ⟨hh, hf, by simpa using h.symm⟩
  · rw [step_of_halted s ((State.halted_iff s).mpr hh)] at h
    exact .inl ⟨hh, by simpa using h.symm⟩

/-- A step that ends in a fault leaves nothing else of the instruction. -/
theorem State.endStep_fault (s t : State) (kind : FaultKind) (h : t.fault = some kind) : s.endStep t = s.raise kind := by
  simp [State.endStep, h]

theorem State.endStep_ok (s t : State) (h : t.fault = none) : s.endStep t = t.tick := by
  simp [State.endStep, h]

end Sys2Proof.Machine
end

