-- ==== Sys2Proof/Tests/Slice0.lean ====
section
/-! SUPPORT. Tests and witnesses. Expected results are those of 95_test_vectors.md, cited by vector id, or are worked out by
hand from the cited rule. Witnesses show that the hypotheses of each statement can be met, at boundary values. -/

namespace Sys2Proof.Tests

open Sys2Proof.Machine

/-! ## Helpers -/

/-- The state after reset with some registers set. -/
def withRegs (regs : List (Reg × Byte)) : State :=
  regs.foldl (fun s p => s.setReg p.1 p.2) State.reset

/-- The state answered, where one is. -/
def answered (r : Result) : Option State :=
  match r with
  | .next t => some t
  | .fault _ => none
  | .refused _ => none

/-- The state answered, the start state where there is none. -/
def after (r : Result) (s : State) : State := (answered r).getD s

theorem next_after (r : Result) (s : State) (h : (answered r).isSome = true) : r = .next (after r s) := by
  cases r <;> simp_all [answered, after]

/-- One step from `s` with the word placed at `pc`; some parts of the state it answers. -/
def ran {α : Type} (s : State) (word : Nat) (look : State → α) : Option α :=
  (answered (step (s.withFetchWord 16 word))).map look

/-! ## Well-formed words (30_encoding.md R75, R76) -/

/-- One ill-formed word for each kind of refusal, all of them listed in 95_test_vectors.md 2.1. -/
theorem test_ill_formed_words_refused :
    legalWord 0x00E1 = false ∧ legalWord 0x5121 = false ∧ legalWord 0x8128 = false ∧ legalWord 0x9121 = false ∧
    legalWord 0xE19F = false ∧ legalWord 0xF1FF = false := by decide

/-- The decoder gives each of them its own name. -/
theorem test_ill_formed_words_named :
    decode 0x00E1 = .error .family0 ∧ decode 0x5121 = .error .family5 ∧ decode 0x812F = .error .family8 ∧
    decode 0x9121 = .error .family9 ∧ decode 0xE0A2 = .error .familyE ∧ decode 0xF154 = .error .familyF := by decide

/-- 95_test_vectors.md 2.1: illegal words at the edges of the families. -/
theorem test_illegal_edges :
    legalWord 0x0000 = false ∧ legalWord 0x0FFF = false ∧ legalWord 0x512F = false ∧ legalWord 0x812D = false ∧
    legalWord 0xE09D = false ∧ legalWord 0xE1A0 = false ∧ legalWord 0xF108 = false ∧ legalWord 0xFFFF = false := by decide

/-- 95_test_vectors.md 2.1: legal words at the edges of a pattern. -/
theorem test_legal_edges :
    legalWord 0x5FF0 = true ∧ legalWord 0x9FF0 = true ∧ legalWord 0x8FFE = true ∧ legalWord 0xEF9E = true ∧
    legalWord 0xEFA1 = true ∧ legalWord 0xFF65 = true ∧ legalWord 0x1000 = true ∧ legalWord 0xD000 = true := by decide

/-! ## Every constructor's word, bit by bit (30_encoding.md R71, R72, R75) -/

theorem test_decode_families_0_to_2 :
    decode 0b0000000011100000#16 = .ok .cls ∧
    decode 0b0000000011101110#16 = .ok .ret ∧
    decode 0b0001101010111100#16 = .ok (.jp 0xABC) ∧
    decode 0b0010001100000001#16 = .ok (.call 0x301) := by decide

theorem test_decode_families_3_to_7 :
    decode 0b0011101001000010#16 = .ok (.seImm 10 0x42) ∧
    decode 0b0100101001000010#16 = .ok (.sneImm 10 0x42) ∧
    decode 0b0101000100100000#16 = .ok (.seReg 1 2) ∧
    decode 0b0110110000000000#16 = .ok (.ldImm 12 0) ∧
    decode 0b0111101010000000#16 = .ok (.addImm 10 0x80) := by decide

theorem test_decode_family_8 :
    decode 0b1000000100100000#16 = .ok (.ldReg 1 2) ∧
    decode 0b1000000100100001#16 = .ok (.orReg 1 2) ∧
    decode 0b1000000100100010#16 = .ok (.andReg 1 2) ∧
    decode 0b1000000100100011#16 = .ok (.xorReg 1 2) ∧
    decode 0b1000101010110100#16 = .ok (.addReg 10 11) ∧
    decode 0b1000000100100101#16 = .ok (.subReg 1 2) ∧
    decode 0b1000000100100110#16 = .ok (.shr 1 2) ∧
    decode 0b1000000100100111#16 = .ok (.subnReg 1 2) ∧
    decode 0b1000000100101110#16 = .ok (.shl 1 2) := by decide

theorem test_decode_families_9_to_E :
    decode 0b1001000100100000#16 = .ok (.sneReg 1 2) ∧
    decode 0b1010000100100011#16 = .ok (.ldI 0x123) ∧
    decode 0b1011001100000000#16 = .ok (.jpV0 0x300) ∧
    decode 0b1100000100001111#16 = .ok (.rnd 1 0x0F) ∧
    decode 0b1101000100100101#16 = .ok (.drw 1 2 5) ∧
    decode 0b1110000110011110#16 = .ok (.skp 1) ∧
    decode 0b1110000110100001#16 = .ok (.sknp 1) := by decide

theorem test_decode_family_F :
    decode 0b1111000100000111#16 = .ok (.ldVxDt 1) ∧
    decode 0b1111001100001010#16 = .ok (.ldVxK 3) ∧
    decode 0b1111000100010101#16 = .ok (.ldDtVx 1) ∧
    decode 0b1111000100011000#16 = .ok (.ldStVx 1) ∧
    decode 0b1111000100011110#16 = .ok (.addI 1) ∧
    decode 0b1111000100101001#16 = .ok (.ldF 1) ∧
    decode 0b1111000100110011#16 = .ok (.ldB 1) ∧
    decode 0b1111001101010101#16 = .ok (.stRegs 3) ∧
    decode 0b1111111101100101#16 = .ok (.ldRegs 15) := by decide

/-- 20_memory.md R54: the byte at the lower address is the high byte, for the decoder and for the table's numbering alike. -/
theorem test_byte_order :
    decodeBytes 0x12 0x34 = .ok (.jp 0x234) ∧ decodeTableWord 16 0x1234 = some (.jp 0x234) ∧
    (State.reset.withFetchWord 16 0x1234).mem.read 0x200 = 0x12 := by decide

/-! ## Control transfer (95_test_vectors.md 2.2) -/

/-- F7. -/
theorem test_ret :
    ran { State.reset with pc := 0x300, sp := 1, stk := State.reset.stk.set 0 0x204 } 0x00EE
      (fun t => (t.pc, t.sp.val, t.stk[0], t.fault)) = some (0x206, 0, 0x204, none) := by decide

/-- F8. -/
theorem test_ret_empty :
    ran State.reset 0x00EE (fun t => (t.pc, t.fault)) = some (0x200, some .stackUnderflow) := by decide

/-- F3. -/
theorem test_jp : ran State.reset 0x1FFF (fun t => (t.pc, t.fault)) = some (0xFFF, none) := by decide

/-- F5. -/
theorem test_call_sixteenth :
    ran { State.reset with pc := 0x2F0, sp := 15 } 0x2300 (fun t => (t.stk[15], t.sp.val, t.pc)) =
      some (0x2F0, 16, 0x300) := by decide

/-- F6. -/
theorem test_call_full :
    ran { State.reset with sp := 16 } 0x2300 (fun t => (t.pc, t.sp.val, t.fault)) =
      some (0x200, 16, some .stackOverflow) := by decide

/-- F10, F11. -/
theorem test_se_imm :
    ran (withRegs [(10, 0x42)]) 0x3A42 (fun t => t.pc) = some 0x204 ∧
    ran (withRegs [(10, 0x41)]) 0x3A42 (fun t => t.pc) = some 0x202 := by decide

/-- F12, F13. -/
theorem test_sne_imm :
    ran (withRegs [(10, 0x42)]) 0x4A42 (fun t => t.pc) = some 0x202 ∧
    ran (withRegs [(10, 0x41)]) 0x4A42 (fun t => t.pc) = some 0x204 := by decide

/-- F14, F15. -/
theorem test_se_reg :
    ran (withRegs [(1, 7), (2, 7)]) 0x5120 (fun t => t.pc) = some 0x204 ∧
    ran (withRegs [(1, 7), (2, 8)]) 0x5120 (fun t => t.pc) = some 0x202 := by decide

/-- F17, F18. -/
theorem test_sne_reg :
    ran (withRegs [(1, 7), (2, 8)]) 0x9120 (fun t => t.pc) = some 0x204 ∧
    ran (withRegs [(1, 7), (2, 7)]) 0x9120 (fun t => t.pc) = some 0x202 := by decide

/-- F21: the sum is not reduced to 12 bits. -/
theorem test_jp_v0 : ran (withRegs [(0, 0xFF)]) 0xBFFF (fun t => (t.pc, t.fault)) = some (0x10FE, none) := by decide

/-- F24, F25: 0xFFE is the last address that can be fetched from. -/
theorem test_last_fetch :
    ran { State.reset with pc := 0xFFE } 0x6005 (fun t => (t.reg 0, t.pc, t.fault)) = some (5, 0x1000, none) ∧
    ran { State.reset with pc := 0xFFF } 0x6005 (fun t => (t.pc, t.fault)) = some (0xFFF, some .outOfBounds) := by decide

/-! ## Registers and arithmetic (95_test_vectors.md 2.3) -/

/-- A44, A45. -/
theorem test_ld_imm :
    ran State.reset 0x6AFF (fun t => (t.reg 10, t.pc)) = some (0xFF, 0x202) ∧
    ran (withRegs [(10, 0x55)]) 0x6A00 (fun t => t.reg 10) = some 0 := by decide

/-- A46: no carry flag. -/
theorem test_add_imm :
    ran (withRegs [(10, 0xFF), (15, 5)]) 0x7A01 (fun t => (t.reg 10, t.reg 15)) = some (0, 5) := by decide

/-- A43: VF as a plain destination. -/
theorem test_ld_reg : ran (withRegs [(2, 0x99)]) 0x8F20 (fun t => t.reg 15) = some 0x99 := by decide

/-- A38. -/
theorem test_or :
    ran (withRegs [(1, 0xF0), (2, 0x0F), (15, 7)]) 0x8121 (fun t => (t.reg 1, t.reg 15)) = some (0xFF, 7) := by decide

/-- A39. -/
theorem test_and :
    ran (withRegs [(1, 0xF0), (2, 0x3C), (15, 7)]) 0x8122 (fun t => (t.reg 1, t.reg 15)) = some (0x30, 7) := by decide

/-- A40. -/
theorem test_xor :
    ran (withRegs [(1, 0xF0), (2, 0x3C), (15, 7)]) 0x8123 (fun t => (t.reg 1, t.reg 15)) = some (0xCC, 7) := by decide

/-- A3, A2. -/
theorem test_add :
    ran (withRegs [(1, 0xC8), (2, 0x64)]) 0x8124 (fun t => (t.reg 1, t.reg 15)) = some (0x2C, 1) ∧
    ran (withRegs [(1, 0x7F), (2, 0x80)]) 0x8124 (fun t => (t.reg 1, t.reg 15)) = some (0xFF, 0) := by decide

/-- A5, A6: VF as the destination and as a source. -/
theorem test_add_vf :
    ran (withRegs [(15, 0x80), (1, 0x80)]) 0x8F14 (fun t => t.reg 15) = some 1 ∧
    ran (withRegs [(15, 3), (1, 0xFE)]) 0x81F4 (fun t => (t.reg 1, t.reg 15)) = some (1, 1) := by decide

/-- A9, A10. -/
theorem test_sub :
    ran (withRegs [(1, 3), (2, 5)]) 0x8125 (fun t => (t.reg 1, t.reg 15)) = some (0xFE, 0) ∧
    ran (withRegs [(1, 7), (2, 7)]) 0x8125 (fun t => (t.reg 1, t.reg 15)) = some (0, 1) := by decide

/-- A13, A15. -/
theorem test_sub_vf :
    ran (withRegs [(15, 3), (1, 5)]) 0x8F15 (fun t => t.reg 15) = some 0 ∧
    ran (withRegs [(15, 9), (1, 5)]) 0x81F5 (fun t => (t.reg 1, t.reg 15)) = some (0xFC, 0) := by decide

/-- A18: `Vy` takes no part. -/
theorem test_shr :
    ran (withRegs [(1, 0xFF), (2, 0x12)]) 0x8126 (fun t => (t.reg 1, t.reg 15, t.reg 2)) = some (0x7F, 1, 0x12) := by decide

/-- A21: the shifted value stays in VF. -/
theorem test_shr_vf : ran (withRegs [(15, 3)]) 0x8F06 (fun t => t.reg 15) = some 1 := by decide

/-- A24, A25. -/
theorem test_subn :
    ran (withRegs [(1, 3), (2, 5)]) 0x8127 (fun t => (t.reg 1, t.reg 15)) = some (2, 1) ∧
    ran (withRegs [(1, 5), (2, 3)]) 0x8127 (fun t => (t.reg 1, t.reg 15)) = some (0xFE, 0) := by decide

/-- A27, A28. -/
theorem test_subn_vf :
    ran (withRegs [(15, 3), (1, 5)]) 0x8F17 (fun t => t.reg 15) = some 1 ∧
    ran (withRegs [(15, 5), (1, 3)]) 0x8F17 (fun t => t.reg 15) = some 0 := by decide

/-- A31, A32. -/
theorem test_shl :
    ran (withRegs [(1, 0x81)]) 0x810E (fun t => (t.reg 1, t.reg 15)) = some (2, 1) ∧
    ran (withRegs [(1, 0x40)]) 0x810E (fun t => (t.reg 1, t.reg 15)) = some (0x80, 0) := by decide

/-- A35: the shifted value stays in VF. -/
theorem test_shl_vf : ran (withRegs [(15, 0x81)]) 0x8F0E (fun t => t.reg 15) = some 2 := by decide

/-- A50, A53, on the meaning with the random byte given. -/
theorem test_rnd_mask :
    (rndWith 0xA5 1 0x0F State.reset).reg 1 = 0x05 ∧ (rndWith 0x5A 15 0x3C State.reset).reg 15 = 0x18 := by decide

/-- A52: mask 0 gives 0 whatever the random byte is. -/
theorem test_rnd_zero_mask (b : Byte) : (rndWith b 1 0 (withRegs [(1, 0x77)])).reg 1 = 0 := by
  show State.reg (State.setReg _ _ _) _ = _
  rw [State.reg_setReg_self]
  exact BitVec.and_zero

/-! ## Index register and memory (95_test_vectors.md 2.4) -/

/-- M2. -/
theorem test_ld_i : ran State.reset 0xAFFF (fun t => (t.i, t.pc)) = some (0xFFF, 0x202) := by decide

/-- M6. -/
theorem test_add_i :
    ran { withRegs [(1, 0xFE), (15, 9)] with i := 0xF01 } 0xF11E (fun t => (t.i, t.reg 15, t.pc)) =
      some (0xFFF, 9, 0x202) := by decide

/-- M7. -/
theorem test_add_i_out :
    ran { withRegs [(1, 0xFF)] with i := 0xF01 } 0xF11E (fun t => (t.i, t.pc, t.fault)) =
      some (0xF01, 0x200, some .outOfBounds) := by decide

/-- M8, M9. -/
theorem test_ld_f :
    ran (withRegs [(1, 0x0F)]) 0xF129 (fun t => (t.i, t.fault)) = some (0x04B, none) ∧
    ran (withRegs [(1, 0x10)]) 0xF129 (fun t => (t.i, t.fault)) = some (0, some .outOfBounds) := by decide

/-- S8 and M12. -/
theorem test_ld_b :
    ran { withRegs [(1, 157)] with i := 0x300 } 0xF133
      (fun t => (t.mem.read 0x300, t.mem.read 0x301, t.mem.read 0x302)) = some (1, 5, 7) ∧
    ran { withRegs [(1, 255)] with i := 0xFFD } 0xF133
      (fun t => (t.mem.read 0xFFD, t.mem.read 0xFFE, t.mem.read 0xFFF)) = some (2, 5, 5) := by decide

/-- M13: not even the bytes that would fit are written. -/
theorem test_ld_b_out :
    ran { withRegs [(1, 255)] with i := 0xFFE } 0xF133 (fun t => (t.mem.read 0xFFE, t.mem.read 0xFFF, t.fault)) =
      some (0, 0, some .outOfBounds) := by decide

/-- M17. -/
theorem test_st_regs :
    ran { withRegs [(0, 0x11), (1, 0x22), (2, 0x33), (3, 0x44)] with i := 0x400 } 0xF255
      (fun t => (t.mem.read 0x400, t.mem.read 0x401, t.mem.read 0x402, t.mem.read 0x403, t.i)) =
      some (0x11, 0x22, 0x33, 0, 0x400) := by decide

/-- S10. -/
theorem test_st_regs_out :
    ran { withRegs [(0, 1), (1, 2), (2, 3), (3, 4)] with i := 0xFFE } 0xF355
      (fun t => (t.mem.read 0xFFE, t.mem.read 0xFFF, t.pc, t.fault)) = some (0, 0, 0x200, some .outOfBounds) := by decide

/-- M19. -/
theorem test_ld_regs :
    ran { State.reset with i := 0x400, mem := State.reset.mem.writeBytes 0x400 [0x11, 0x22, 0x33, 0x44] } 0xF265
      (fun t => (t.reg 0, t.reg 1, t.reg 2, t.reg 3, t.i)) = some (0x11, 0x22, 0x33, 0, 0x400) := by decide

/-- M21. -/
theorem test_ld_regs_out :
    ran { State.reset with i := 0xFF1 } 0xFF65 (fun t => (t.pc, t.fault)) = some (0x200, some .outOfBounds) := by decide

/-! ## Display (95_test_vectors.md 2.5) -/

/-- 44_display.md R180. -/
theorem test_cls :
    ran { State.reset with fb := State.reset.fb.flip 63 31 } 0x00E0 (fun t => (t.fb.cell 2047, t.dirty, t.pc)) =
      some (false, true, 0x202) := by decide

/-- A state whose sprite at 0x300 is the one byte. -/
def sprite (b vx vy : Byte) : State :=
  { withRegs [(0, vx), (1, vy), (15, 1)] with i := 0x300, mem := State.reset.mem.write 0x300 b }

/-- G3: the right part of the sprite is dropped, not wrapped. -/
theorem test_drw_clip :
    ran (sprite 0xFF 0x3C 0) 0xD011 (fun t => (t.fb[0], t.fb[1], t.reg 15, t.dirty)) =
      some (0xF000000000000000, 0, 0, true) := by decide

/-- G10: the second draw flips one set cell. -/
theorem test_drw_collision :
    ran { sprite 0x60 0 0 with fb := (State.reset.fb.flip 0 0).flip 1 0 } 0xD011
      (fun t => (t.fb.cell 0, t.fb.cell 1, t.fb.cell 2, t.reg 15)) = some (true, false, true, 1) := by decide

/-! ## Keys and timers (95_test_vectors.md 2.6) -/

/-- K1, K2. -/
theorem test_skp :
    ran ((withRegs [(1, 5)]).keySet 5 true) 0xE19E (fun t => t.pc) = some 0x204 ∧
    ran ((withRegs [(1, 5)]).keySet 4 true) 0xE19E (fun t => t.pc) = some 0x202 := by decide

/-- K4, K5. -/
theorem test_sknp :
    ran ((withRegs [(1, 5)]).keySet 5 true) 0xE1A1 (fun t => t.pc) = some 0x202 ∧
    ran (withRegs [(1, 5)]) 0xE1A1 (fun t => t.pc) = some 0x204 := by decide

/-- K3, K6. -/
theorem test_key_number_out :
    ran (withRegs [(1, 0x10)]) 0xE19E (fun t => (t.pc, t.fault)) = some (0x200, some .outOfBounds) ∧
    ran (withRegs [(1, 0xFF)]) 0xE1A1 (fun t => (t.pc, t.fault)) = some (0x200, some .outOfBounds) := by decide

/-- K9, first step. -/
theorem test_key_wait :
    ran { withRegs [(3, 0x55)] with dt := 3, st := 1 } 0xF30A (fun t => (t.pc, t.reg 3, t.dt, t.st)) =
      some (0x200, 0x55, 2, 0) := by decide

/-- K10. -/
theorem test_key_taken :
    ran ((State.reset.keySet 7 true).keySet 12 true) 0xF30A (fun t => (t.reg 3, t.pc)) = some (7, 0x202) := by decide

/-- K7. -/
theorem test_ld_vx_dt : ran { State.reset with dt := 9 } 0xF107 (fun t => (t.reg 1, t.dt)) = some (9, 8) := by decide

/-- K12, K14. -/
theorem test_ld_dt_vx :
    ran (withRegs [(1, 5)]) 0xF115 (fun t => (t.dt, t.pc)) = some (4, 0x202) ∧
    ran State.reset 0xF115 (fun t => t.dt) = some 0 := by decide

/-- K19. -/
theorem test_ld_st_vx :
    ran { withRegs [(1, 2)] with dt := 9 } 0xF118 (fun t => (t.st, t.dt)) = some (1, 8) := by decide

/-! ## Faults, reset, load (95_test_vectors.md 2.7, 2.8) -/

/-- X1: no tick on a faulting step. -/
theorem test_decode_fault :
    ran { State.reset with dt := 5, st := 5 } 0x0000 (fun t => (t.fault, t.dt, t.st, t.pc)) =
      some (some .decodeError, 5, 5, 0x200) := by decide

/-- H1. -/
theorem test_reset_memory :
    State.reset.mem.readBytes 0 5 = [0xF0, 0x90, 0x90, 0x90, 0xF0] ∧
    State.reset.mem.readBytes 0x4B 6 = [0xF0, 0x80, 0xF0, 0x80, 0x80, 0] ∧ State.reset.mem.read 0x200 = 0 := by decide

/-- H2, H3. -/
theorem test_load :
    State.reset.loadProgram [] = (.loadError, State.reset) ∧
    ((State.reset.loadProgram [0xAA, 0xBB, 0xCC, 0xDD]).2.loadProgram [0x11, 0x22]).2.mem.readBytes 0x200 4 =
      [0x11, 0x22, 0xCC, 0xDD] := by decide

/-! ## Witnesses: the hypotheses of each statement can be met, clause by clause, at boundary values -/

/-- The state after reset with the word placed at 0x200. -/
def placed (word : Nat) : State := State.reset.withFetchWord 16 word

/-- The last address that can be fetched from, and the first that cannot. -/
def atEnd : State := { State.reset with pc := 0xFFE }
def pastEnd : State := { State.reset with pc := 0xFFF }

/-- Stacks with no entry, one entry, all but one entry and every entry in use, each holding the highest address of a call. -/
def stackOf (n : Fin 17) (word : Nat) : State :=
  { placed word with sp := n, stk := Vector.replicate 16 0x0FFE }

theorem fetchable_ends : atEnd.fetchable ∧ ¬ pastEnd.fetchable := by decide

theorem inv_stackOf (n : Fin 17) : (stackOf n 0x00EE).Inv :=
  ⟨show (placed 0x00EE).mem.wf by decide, show (placed 0x00EE).i.toNat ≤ 0x0FFF by decide,
    show (placed 0x00EE).pc.toNat ≤ 0x10FE by decide, fun j _ => by simp [stackOf]⟩

theorem witness_EncodeOfDecode : decode 0xFF65 = .ok (.ldRegs 15) ∧ decode 0x00E0 = .ok .cls := by decide

theorem witness_DecoderFollowsTheOpcodeMap :
    decode 0xDFFF = .ok (.drw 15 15 15) ∧
    (⟨"LD_Vx___I", 0xF0FF, 0xF065⟩ : OpcodeRow) ∈ opcodeMap ∧ (0xFF65 : Word) &&& 0xF0FF = 0xF065 := by decide

theorem witness_OpcodeRowsAreDisjoint :
    (⟨"CLS", 0xFFFF, 0x00E0⟩ : OpcodeRow) ∈ opcodeMap ∧ (0x00E0 : Word) &&& 0xFFFF = 0x00E0 := by decide

/-- Each disjunct of the table by family has a word. -/
theorem witness_IllegalWordsByFamily :
    (decode 0x0FFF = .error .family0 ∧ decode 0x500F = .error .family5 ∧ decode 0x8008 = .error .family8) ∧
    (decode 0x9001 = .error .family9 ∧ decode 0xE0A2 = .error .familyE ∧ decode 0xF066 = .error .familyF) := by decide

/-- Both clauses: an instruction that does not fault, and one that does. -/
theorem witness_StepRunsTheDecodedInstruction :
    ((placed 0x6AFF).fault = none ∧ (placed 0x6AFF).fetchable ∧ decode (placed 0x6AFF).wordAtPc = .ok (.ldImm 10 0xFF) ∧
      ∃ t, exec (.ldImm 10 0xFF) { placed 0x6AFF with opc := (placed 0x6AFF).wordAtPc } = .next t ∧ t.fault = none) ∧
    ((placed 0x00EE).fault = none ∧ (placed 0x00EE).fetchable ∧ decode (placed 0x00EE).wordAtPc = .ok .ret ∧
      ∃ t, exec .ret { placed 0x00EE with opc := (placed 0x00EE).wordAtPc } = .next t ∧
        t.fault = some .stackUnderflow) :=
  ⟨⟨by decide, by decide, by decide, _, rfl, rfl⟩, ⟨by decide, by decide, by decide, _, rfl, rfl⟩⟩

theorem witness_HaltedStepChangesNothing : (State.reset.raise .decodeError).fault ≠ none := by decide

theorem witness_FetchReadsTheWordOrFaults :
    (pastEnd.fault = none ∧ pastEnd.pc.toNat + 1 ≥ 4096) ∧ atEnd.pc.toNat + 1 < 4096 := by decide

/-- Both ways: the all-zero word at the last address that can be fetched from, a legal word, and no word at all. -/
theorem witness_DecodeErrorExactlyOnIllegalWords :
    (atEnd.fault = none ∧ (atEnd.fetchable ∧ legalWord atEnd.wordAtPc = false) ∧ ∃ t, step atEnd = .next t) ∧
    ((placed 0x00E0).fault = none ∧ legalWord (placed 0x00E0).wordAtPc = true ∧ ∃ t, step (placed 0x00E0) = .next t) ∧
    (pastEnd.fault = none ∧ ¬ pastEnd.fetchable ∧ ∃ t, step pastEnd = .next t) :=
  ⟨⟨by decide, by decide, _, next_after _ State.reset (by decide)⟩,
    ⟨by decide, by decide, _, next_after _ State.reset (by decide)⟩,
    ⟨by decide, by decide, _, next_after _ State.reset (by decide)⟩⟩

theorem witness_FaultingStepWritesOnlyTheLatch :
    State.reset.fault = none ∧ ∃ t, step State.reset = .next t ∧ t.fault = some .decodeError :=
  ⟨rfl, _, next_after _ State.reset (by decide), by decide⟩

theorem witness_StepFaultsExactlyAsTheTableSays : State.reset.fault = none := rfl

/-- 00EE at both ends of the empty stack's check, 2nnn at both ends of the full stack's check. -/
theorem witness_StackFaultsExactlyAtTheEnds :
    (∃ t, step (stackOf 0 0x00EE) = .next t ∧ t.fault = some .stackUnderflow) ∧
    (∃ t, step (stackOf 1 0x00EE) = .next t ∧ t.fault = none) ∧
    (∃ t, step (stackOf 16 0x2300) = .next t ∧ t.fault = some .stackOverflow) ∧
    (∃ t, step (stackOf 15 0x2300) = .next t ∧ t.fault = none) ∧
    (stackOf 16 0x2300).fault = none ∧ (stackOf 16 0x2300).fetchable :=
  ⟨⟨_, next_after _ State.reset (by decide), by decide⟩, ⟨_, next_after _ State.reset (by decide), by decide⟩,
    ⟨_, next_after _ State.reset (by decide), by decide⟩, ⟨_, next_after _ State.reset (by decide), by decide⟩,
    by decide, by decide⟩

/-- All four clauses: Fx15, Fx18, and an instruction that is neither. -/
theorem witness_TimersTickOncePerStep :
    (decode (placed 0xF115).wordAtPc = .ok (.ldDtVx 1) ∧ ∃ t, step (placed 0xF115) = .next t ∧ t.fault = none) ∧
    (decode (placed 0xF118).wordAtPc = .ok (.ldStVx 1) ∧ ∃ t, step (placed 0xF118) = .next t ∧ t.fault = none) ∧
    (decode (placed 0xF10A).wordAtPc = .ok (.ldVxK 1) ∧ ∃ t, step (placed 0xF10A) = .next t ∧ t.fault = none) ∧
    (placed 0xF10A).fault = none ∧ (placed 0xF10A).fetchable :=
  ⟨⟨by decide, _, next_after _ State.reset (by decide), by decide⟩,
    ⟨by decide, _, next_after _ State.reset (by decide), by decide⟩,
    ⟨by decide, _, next_after _ State.reset (by decide), by decide⟩, by decide, by decide⟩

/-- Both clauses: a return that completes and one that faults. -/
theorem witness_PcFollowsTheTable :
    ((stackOf 16 0x00EE).Inv ∧ (stackOf 16 0x00EE).fault = none ∧ (stackOf 16 0x00EE).fetchable ∧
      decode (stackOf 16 0x00EE).wordAtPc = .ok .ret ∧ ∃ t, step (stackOf 16 0x00EE) = .next t ∧ t.fault = none) ∧
    ((stackOf 0 0x00EE).Inv ∧ decode (stackOf 0 0x00EE).wordAtPc = .ok .ret ∧
      ∃ t, step (stackOf 0 0x00EE) = .next t ∧ t.fault ≠ none) :=
  ⟨⟨inv_stackOf 16, by decide, by decide, by decide, _, next_after _ State.reset (by decide), by decide⟩,
    ⟨inv_stackOf 0, by decide, _, next_after _ State.reset (by decide), by decide⟩⟩

/-- A draw, a store and a call into the last free entry. -/
theorem witness_EachPartHasOnlyItsWriters :
    ((placed 0xD125).fault = none ∧ (placed 0xD125).fetchable ∧ decode (placed 0xD125).wordAtPc = .ok (.drw 1 2 5) ∧
      ∃ t, step (placed 0xD125) = .next t) ∧
    (decode (placed 0xFF55).wordAtPc = .ok (.stRegs 15) ∧ ∃ t, step (placed 0xFF55) = .next t) ∧
    (decode (stackOf 15 0x2300).wordAtPc = .ok (.call 0x300) ∧ ∃ t, step (stackOf 15 0x2300) = .next t) :=
  ⟨⟨by decide, by decide, by decide, _, next_after _ State.reset (by decide)⟩,
    ⟨by decide, _, next_after _ State.reset (by decide)⟩, ⟨by decide, _, next_after _ State.reset (by decide)⟩⟩

/-- What each of them may write begins and ends where the spec says: the stored bytes, and the entry at `SP`. -/
theorem test_mayWrite_ends :
    (mayWrite (.stRegs 15) (placed 0xFF55) (.byte 15) ∧ ¬ mayWrite (.stRegs 15) (placed 0xFF55) (.byte 16)) ∧
    (mayWrite (.ldB 1) (placed 0xF133) (.byte 2) ∧ ¬ mayWrite (.ldB 1) (placed 0xF133) (.byte 3)) ∧
    (mayWrite (.call 0x300) (stackOf 15 0x2300) (.stk 15) ∧ ¬ mayWrite (.call 0x300) (stackOf 15 0x2300) (.stk 14)) := by
  have hi : (placed 0xFF55).i.toNat = 0 ∧ (placed 0xF133).i.toNat = 0 ∧ (stackOf 15 0x2300).sp.val = 15 := by decide
  simp [mayWrite, hi]

/-- Both clauses: a display instruction and another. -/
theorem witness_DirtyIsSetExactlyByTheDisplayInstructions :
    (decode (placed 0xD010).wordAtPc = .ok (.drw 0 1 0) ∧ ∃ t, step (placed 0xD010) = .next t ∧ t.fault = none) ∧
    (decode (placed 0x6001).wordAtPc = .ok (.ldImm 0 1) ∧ ∃ t, step (placed 0x6001) = .next t ∧ t.fault = none) :=
  ⟨⟨by decide, _, next_after _ State.reset (by decide), by decide⟩,
    ⟨by decide, _, next_after _ State.reset (by decide), by decide⟩⟩

theorem witness_OnlyRndReadsTheRandomInput :
    (∀ x kk, (.shr 1 2 : Instr) ≠ .rnd x kk) ∧ ∃ t, exec (.shr 1 2) State.reset = .next t :=
  ⟨by simp, _, rfl⟩

theorem witness_SelfJumpLeavesAllButTheTimers :
    (placed 0x1200).fault = none ∧ (placed 0x1200).fetchable ∧ decode (placed 0x1200).wordAtPc = .ok (.jp 0x200) ∧
    (0x200 : Addr).toNat = (placed 0x1200).pc.toNat := by decide

/-- Both clauses: the empty stack, and one and sixteen entries in use. -/
theorem witness_ReturnPopsTheStack :
    (stackOf 0 0x00EE).sp.val = 0 ∧
    ((stackOf 1 0x00EE).sp.val = (0 : Reg).val + 1 ∧ ((stackOf 1 0x00EE).stk[(0 : Reg)]).toNat ≤ 0x0FFE) ∧
    ((stackOf 16 0x00EE).sp.val = (15 : Reg).val + 1 ∧ ((stackOf 16 0x00EE).stk[(15 : Reg)]).toNat ≤ 0x0FFE) := by
  decide

/-- Both clauses: the full stack, and none and fifteen entries in use. -/
theorem witness_CallPushesItsOwnAddress :
    (stackOf 16 0x2300).sp.val = 16 ∧ (stackOf 0 0x2300).sp.val = (0 : Reg).val ∧
    (stackOf 15 0x2300).sp.val = (15 : Reg).val := by decide

/-- The skips' condition holds, and does not, at the last address that can be fetched from. -/
theorem witness_SkipsOnImmediates :
    atEnd.fetchable ∧ atEnd.reg 3 = 0 ∧ atEnd.reg 3 ≠ 1 := by decide

/-- The lowest and the highest illegal low nibble, and registers that are equal and differ. -/
theorem witness_SkipsOnRegisters :
    (0 < 1 ∧ 15 < 16) ∧ atEnd.fetchable ∧ atEnd.reg 1 = atEnd.reg 2 ∧ (withRegs [(1, 7)]).reg 1 ≠ (withRegs [(1, 7)]).reg 2 := by
  decide

theorem witness_CallThenReturnComesBack :
    (stackOf 15 0x2300).fetchable ∧ (stackOf 15 0x2300).sp.val = (15 : Reg).val ∧
    ∃ t u, exec (.call 0x300) (stackOf 15 0x2300) = .next t ∧ exec .ret t = .next u :=
  ⟨by decide, by decide, _, _, rfl, rfl⟩

theorem witness_LoadAndAddImmediate : atEnd.fetchable := by decide
theorem witness_CopyAndLogic : atEnd.fetchable := by decide
theorem witness_LoadIndex : atEnd.fetchable := by decide
theorem witness_RandomByteIsMasked : atEnd.fetchable := by decide
theorem witness_ClearScreen : atEnd.fetchable := by decide

/-- VF as the destination, and another destination; a sum of 255 and one of 256. -/
theorem witness_AddRegistersWithCarry :
    atEnd.fetchable ∧ (14 : Reg) ≠ 15 ∧ (0x7F : Byte).toNat + (0x80 : Byte).toNat = 255 ∧
    (0xFF : Byte).toNat + (0x01 : Byte).toNat = 256 := by decide

theorem witness_SubtractRegistersWithNoBorrow : atEnd.fetchable ∧ (14 : Reg) ≠ 15 := by decide
theorem witness_ShiftsByOne : atEnd.fetchable ∧ (14 : Reg) ≠ 15 := by decide

/-- The sums 4095 and 4096. -/
theorem witness_AddToIndex :
    ({ withRegs [(1, 0xFE)] with i := 0xF01 } : State).fetchable ∧
    ({ withRegs [(1, 0xFE)] with i := 0xF01 } : State).i.toNat + ((withRegs [(1, 0xFE)]).reg 1).toNat = 4095 ∧
    ({ withRegs [(1, 0xFF)] with i := 0xF01 } : State).i.toNat + ((withRegs [(1, 0xFF)]).reg 1).toNat = 4096 := by decide

/-- The digits 15 and 16. -/
theorem witness_PointAtGlyph :
    (withRegs [(1, 15)]).fetchable ∧ ((withRegs [(1, 15)]).reg 1).toNat ≤ 15 ∧ ((withRegs [(1, 16)]).reg 1).toNat > 15 := by
  decide

/-- A state after reset but for the index register. -/
def withIndex (i : Word) : State := { State.reset with i := i }

/-- The last address three digits fit at, and the first they do not. -/
theorem witness_StoreDecimalDigits :
    ((withIndex 0xFFD).mem.wf ∧ (withIndex 0xFFD).fetchable ∧ (withIndex 0xFFD).i.toNat + 2 < 4096) ∧
    (withIndex 0xFFE).i.toNat + 2 ≥ 4096 := by decide

/-- The last address sixteen bytes fit at, and the first they do not. -/
theorem witness_StoreRegisters :
    ((withIndex 0xFF0).mem.wf ∧ (withIndex 0xFF0).fetchable ∧ (withIndex 0xFF0).i.toNat + (15 : Reg).val < 4096) ∧
    (withIndex 0xFF1).i.toNat + (15 : Reg).val ≥ 4096 := by decide

/-- The same boundary, and a store followed by a load. -/
theorem witness_LoadRegisters :
    ((withIndex 0xFF0).fetchable ∧ (withIndex 0xFF0).i.toNat + (15 : Reg).val < 4096) ∧
    (withIndex 0xFF1).i.toNat + (15 : Reg).val ≥ 4096 ∧
    (State.reset.mem.wf ∧ State.reset.i.toNat + (15 : Reg).val < 4096 ∧ ∃ t u, exec (.stRegs 15) State.reset = .next t ∧
      exec (.ldRegs 15) { t with v := Vector.replicate 16 0 } = .next u) :=
  ⟨by decide, by decide, by decide, by decide, _, _, exec_stRegs_ok 15 State.reset (by decide),
    exec_ldRegs_ok 15 _ (by decide)⟩

theorem witness_StoreIsSeenByTheNextFetch :
    (withIndex 0x202).mem.wf ∧ (withIndex 0x202).fetchable ∧ 1 ≤ (1 : Reg).val ∧
    (withIndex 0x202).i.toNat = (withIndex 0x202).pc.toNat + 2 ∧ (withIndex 0x202).i.toNat + (1 : Reg).val < 4096 ∧
    ∃ t, exec (.stRegs 1) (withIndex 0x202) = .next t :=
  ⟨by decide, by decide, by decide, by decide, by decide, _, exec_stRegs_ok 1 _ (by decide)⟩

/-- The last address fifteen rows fit at and the first they do not; a sprite bit over a set cell and over a cleared one. -/
theorem witness_DrawSprite :
    ((withIndex 0xFF1).fetchable ∧ (withIndex 0xFF1).i.toNat + (15 : Nibble).toNat ≤ 4096) ∧
    (withIndex 0xFF2).i.toNat + (15 : Nibble).toNat > 4096 ∧
    ((State.reset.fb.flip 0 0).cell (64 * 0 + 0) = true ∧ spriteBit State.reset.mem 0 5 0 0 0 0 = true) ∧
    (State.reset.fb.cell (64 * 31 + 63) = false ∧ spriteBit State.reset.mem 0 5 63 31 63 31 = true) := by decide

theorem witness_DrawTwiceRestores :
    (0 : Reg) ≠ 15 ∧ (1 : Reg) ≠ 15 ∧ State.reset.i.toNat + (5 : Nibble).toNat ≤ 4096 ∧
    ∃ t u, exec (.drw 0 1 5) State.reset = .next t ∧ exec (.drw 0 1 5) t = .next u :=
  ⟨by decide, by decide, by decide, _, _, exec_drw_ok 0 1 5 State.reset (by decide), exec_drw_ok 0 1 5 _ (by decide)⟩

/-- The key numbers 15 and 16. -/
theorem witness_SkipsOnKeys :
    ((withRegs [(1, 15)]).fetchable ∧ ((withRegs [(1, 15)]).reg 1).toNat = (15 : Reg).val) ∧
    ((withRegs [(1, 16)]).reg 1).toNat > 15 := by decide

/-- No key down, and only the highest-numbered key down. -/
theorem witness_WaitForKey :
    (∀ key : Reg, State.reset.k[key] = false) ∧
    ((State.reset.keySet 15 true).fetchable ∧ (State.reset.keySet 15 true).k[(15 : Reg)] = true ∧
      ∀ j : Reg, j < 15 → (State.reset.keySet 15 true).k[j] = false) := by decide

theorem witness_TimerMoves :
    (placed 0xF107).fetchable ∧ (placed 0xF107).fault = none ∧ decode (placed 0xF107).wordAtPc = .ok (.ldVxDt 1) ∧
    decode (placed 0xF115).wordAtPc = .ok (.ldDtVx 1) ∧ decode (placed 0xF118).wordAtPc = .ok (.ldStVx 1) := by decide

/-- The ends of the font and of memory. -/
theorem witness_ResetValues : (79 < 80) ∧ (80 ≤ 80 ∧ 80 < 4096) ∧ (80 ≤ 4095 ∧ 4095 < 4096) := by decide

theorem witness_LoadProgramCopiesTheImage :
    ([] : List Byte) = [] ∧ ([0x60] : List Byte) ≠ [] ∧ State.reset.mem.wf ∧ 0 < ([0x60] : List Byte).length := by decide

theorem witness_StepKeepsInvariants :
    (stackOf 16 0x00EE).Inv ∧ ∃ t, step (stackOf 16 0x00EE) = .next t :=
  ⟨inv_stackOf 16, _, next_after _ State.reset (by decide)⟩

/-- A state with the stack full and every entry at its bound; the transaction may be any. -/
theorem witness_EveryTransactionKeepsInvariants : (stackOf 16 0x00EE).Inv := inv_stackOf 16

theorem witness_ReachableStatesSatisfyInvariants : Reachable (State.reset.perform (.keySet 15 true)) :=
  .perform State.reset _ .reset

theorem witness_ReturnStaysBelowTheEnd :
    (stackOf 1 0x00EE).Inv ∧ 0 < (stackOf 1 0x00EE).sp.val ∧ ∃ t, exec .ret (stackOf 1 0x00EE) = .next t :=
  ⟨inv_stackOf 1, by decide, _, exec_ret_ok _ (by decide)⟩

end Sys2Proof.Tests
end

/-! # Control transfer: the jump and the four skips on registers and immediates (41_flow.md R111, R113 to R116) -/

namespace Sys2Proof

/-! ## The words of families 1, 3, 4, 5 and 9 (30_encoding.md R72, R75) -/

/-- Family 1 is the jump (30_encoding.md R75). -/
theorem decode_formNNN_1 (nnn : Addr) : decode (formNNN 0x1 nnn) = .ok (.jp nnn) := by
  simp [decode]

/-- Family 3 is the skip on an equal immediate (30_encoding.md R75). -/
theorem decode_formXKK_3 (x : Reg) (kk : Byte) : decode (formXKK 0x3 x kk) = .ok (.seImm x kk) := by
  simp [decode]

/-- Family 4 is the skip on a different immediate (30_encoding.md R75). -/
theorem decode_formXKK_4 (x : Reg) (kk : Byte) : decode (formXKK 0x4 x kk) = .ok (.sneImm x kk) := by
  simp [decode]

/-- In family 5 the low nibble decides (30_encoding.md R74). -/
theorem decode_formXYN_5 (x y : Reg) (n : Nibble) : decode (formXYN 0x5 x y n) = decode5 x y n := by
  simp [decode]

/-- In family 9 the low nibble decides (30_encoding.md R74). -/
theorem decode_formXYN_9 (x y : Reg) (n : Nibble) : decode (formXYN 0x9 x y n) = decode9 x y n := by
  simp [decode]

theorem decode5_of_ne_zero (x y : Reg) (n : Nibble) (h : n ≠ 0) : decode5 x y n = .error .family5 := by
  unfold decode5
  split
  · exact absurd rfl h
  · rfl

theorem decode9_of_ne_zero (x y : Reg) (n : Nibble) (h : n ≠ 0) : decode9 x y n = .error .family9 := by
  unfold decode9
  split
  · exact absurd rfl h
  · rfl

/-- A low nibble given as a number is one of format XYN's nibbles. -/
theorem ofNat_eq_formXYN (f : Nibble) (x y : Reg) (n : Nat) (h : n < 16) :
    BitVec.ofNat 16 (4096 * f.toNat + 256 * x.val + 16 * y.val + n) = formXYN f x y (BitVec.ofNat 4 n) := by
  rw [formXYN_eq_ofNat, BitVec.toNat_ofNat, Nat.mod_eq_of_lt h]

/-- The word 5xyn, its low nibble given as a number. -/
theorem decode_ofNat_5xyn (x y : Reg) (n : Nat) (h : n < 16) :
    decode (BitVec.ofNat 16 (0x5000 + 256 * x.val + 16 * y.val + n)) = decode5 x y (BitVec.ofNat 4 n) :=
  (congrArg decode (ofNat_eq_formXYN 0x5 x y n h)).trans (decode_formXYN_5 x y _)

/-- The word 9xyn, its low nibble given as a number. -/
theorem decode_ofNat_9xyn (x y : Reg) (n : Nat) (h : n < 16) :
    decode (BitVec.ofNat 16 (0x9000 + 256 * x.val + 16 * y.val + n)) = decode9 x y (BitVec.ofNat 4 n) :=
  (congrArg decode (ofNat_eq_formXYN 0x9 x y n h)).trans (decode_formXYN_9 x y _)

theorem ofNat4_ne_zero {n : Nat} (h0 : 0 < n) (h : n < 16) : BitVec.ofNat 4 n ≠ 0 := by
  bv_omega

end Sys2Proof

namespace Sys2Proof.Machine

/-! ## The arms of `exec` -/

theorem exec_jp (nnn : Addr) (s : State) : exec (.jp nnn) s = .next (s.jump (zext16 nnn)) := rfl

theorem exec_seImm (x : Reg) (kk : Byte) (s : State) :
    exec (.seImm x kk) s = .next (s.skipIf (s.reg x == kk)) := rfl

theorem exec_sneImm (x : Reg) (kk : Byte) (s : State) :
    exec (.sneImm x kk) s = .next (s.skipIf (s.reg x != kk)) := rfl

theorem exec_seReg (x y : Reg) (s : State) :
    exec (.seReg x y) s = .next (s.skipIf (s.reg x == s.reg y)) := rfl

theorem exec_sneReg (x y : Reg) (s : State) :
    exec (.sneReg x y) s = .next (s.skipIf (s.reg x != s.reg y)) := rfl

/-! ## Skips on a comparison of bytes (40_step_cycle.md R95, R96) -/

section
variable {instr : Instr} {s : State} {a b : Byte}

/-- An instruction that skips when two bytes are equal completes and writes `pc` alone. -/
theorem skips_when_eq (he : exec instr s = .next (s.skipIf (a == b))) (h : s.fetchable) :
    ∃ t, exec instr s = .next t ∧ t.pc.toNat = (if a = b then s.pc.toNat + 4 else s.pc.toNat + 2) ∧
      FrameExcept (fun p => p = .pc) s t := by
  refine ⟨_, he, ?_, frame_skipIf s _⟩
  simp only [s.skipIf_toNat _ h, beq_iff_eq]

/-- An instruction that skips when two bytes differ completes and writes `pc` alone. -/
theorem skips_when_ne (he : exec instr s = .next (s.skipIf (a != b))) (h : s.fetchable) :
    ∃ t, exec instr s = .next t ∧ t.pc.toNat = (if a = b then s.pc.toNat + 2 else s.pc.toNat + 4) ∧
      FrameExcept (fun p => p = .pc) s t := by
  refine ⟨_, he, ?_, frame_skipIf s _⟩
  simp only [s.skipIf_toNat _ h, bne_iff_ne, ite_not]

end

/-! ## The obligations -/

/-- Settles O23: each word is format XKK of its fields, and each skip is a `skipIf` on a comparison with `kk`. -/
theorem skipsOnImmediates : Obligations.SkipsOnImmediates := by
  intro x kk s
  have h3 := formXKK_eq_ofNat 0x3 x kk
  have h4 := formXKK_eq_ofNat 0x4 x kk
  refine ⟨?_, ?_, fun hf => ⟨skips_when_eq (exec_seImm x kk s) hf, skips_when_ne (exec_sneImm x kk s) hf⟩⟩
  · exact h3 ▸ decode_formXKK_3 x kk
  · exact h4 ▸ decode_formXKK_4 x kk

/-- Settles O24: each word is format XYN of its fields, where only the low nibble 0 is a skip, and each skip is a
`skipIf` on a comparison of two registers. -/
theorem skipsOnRegisters : Obligations.SkipsOnRegisters := by
  intro x y s
  refine ⟨?_, ?_, fun n h0 hn => ⟨?_, ?_⟩,
    fun hf => ⟨skips_when_eq (exec_seReg x y s) hf, skips_when_ne (exec_sneReg x y s) hf⟩⟩
  · exact decode_ofNat_5xyn x y 0 (by decide)
  · exact decode_ofNat_9xyn x y 0 (by decide)
  · exact (decode_ofNat_5xyn x y n hn).trans (decode5_of_ne_zero x y _ (ofNat4_ne_zero h0 hn))
  · exact (decode_ofNat_9xyn x y n hn).trans (decode9_of_ne_zero x y _ (ofNat4_ne_zero h0 hn))

/-- Settles O21: the word is format NNN of its fields, and `jump` writes `pc` alone. -/
theorem jumpGoesToItsAddress : Obligations.JumpGoesToItsAddress := by
  intro nnn s
  have h1 := formNNN_eq_ofNat 0x1 nnn
  exact ⟨h1 ▸ decode_formNNN_1 nnn, _, exec_jp nnn s, zext16_toNat nnn, frame_jump s _⟩

end Sys2Proof.Machine


/-! # Register loads, the immediate addition, and the flagless operations on two registers (42_alu.md R130 to R135) -/

namespace Sys2Proof

/-! ## The words of families 6, 7 and 8 (30_encoding.md R72, R75) -/

/-- Family 6 loads an immediate (30_encoding.md R75). -/
theorem decode_formXKK_6 (x : Reg) (kk : Byte) : decode (formXKK 0x6 x kk) = .ok (.ldImm x kk) := by
  simp [decode]

/-- Family 7 adds an immediate (30_encoding.md R75). -/
theorem decode_formXKK_7 (x : Reg) (kk : Byte) : decode (formXKK 0x7 x kk) = .ok (.addImm x kk) := by
  simp [decode]

/-- In family 8 the low nibble decides (30_encoding.md R74). -/
theorem decode_formXYN_8 (x y : Reg) (n : Nibble) : decode (formXYN 0x8 x y n) = decode8 x y n := by
  simp [decode]

/-- The word 8xyn, its low nibble added to the family's base. -/
theorem decode_ofNat_8xyn (x y : Reg) (n : Nibble) :
    decode (BitVec.ofNat 16 (0x8000 + n.toNat + 256 * x.val + 16 * y.val)) = decode8 x y n := by
  have hword : 0x8000 + n.toNat + 256 * x.val + 16 * y.val =
      4096 * (0x8 : Nibble).toNat + 256 * x.val + 16 * y.val + n.toNat := by
    have h8 : (0x8 : Nibble).toNat = 8 := rfl
    omega
  rw [hword, ← formXYN_eq_ofNat, decode_formXYN_8]

end Sys2Proof

namespace Sys2Proof.Machine

/-! ## The arms of `exec` -/

theorem exec_ldImm (x : Reg) (kk : Byte) (s : State) :
    exec (.ldImm x kk) s = .next (s.setReg x kk).advance := rfl

theorem exec_addImm (x : Reg) (kk : Byte) (s : State) :
    exec (.addImm x kk) s = .next (s.setReg x (s.reg x + kk)).advance := rfl

theorem exec_ldReg (x y : Reg) (s : State) :
    exec (.ldReg x y) s = .next (s.setReg x (s.reg y)).advance := rfl

theorem exec_orReg (x y : Reg) (s : State) :
    exec (.orReg x y) s = .next (s.setReg x (s.reg x ||| s.reg y)).advance := rfl

theorem exec_andReg (x y : Reg) (s : State) :
    exec (.andReg x y) s = .next (s.setReg x (s.reg x &&& s.reg y)).advance := rfl

theorem exec_xorReg (x y : Reg) (s : State) :
    exec (.xorReg x y) s = .next (s.setReg x (s.reg x ^^^ s.reg y)).advance := rfl

/-! ## Instructions that write one register and advance (42_alu.md R130 to R135) -/

/-- Writing `V[x]` and advancing leaves every part but `V[x]` and `pc`. -/
theorem frame_setReg_advance (s : State) (x : Reg) (b : Byte) : FrameExcept (writesReg x) s (s.setReg x b).advance :=
  ((frame_setReg s x b).mono fun _ h => .inr h).trans ((frame_advance _).mono fun _ h => .inl h)

/-- An instruction that writes a byte to `V[x]` and advances completes, `V[x]` has whatever property `P` that byte has, and
nothing but `V[x]` and `pc` is written. -/
theorem completes_setReg_advance (P : Byte → Prop) {instr : Instr} {s : State} {x : Reg} {b : Byte}
    (he : exec instr s = .next (s.setReg x b).advance) (hf : s.fetchable) (hP : P b) :
    ∃ t, exec instr s = .next t ∧ P (t.reg x) ∧ t.pc.toNat = s.pc.toNat + 2 ∧ FrameExcept (writesReg x) s t := by
  refine ⟨_, he, ?_, (s.setReg x b).advance_toNat hf, frame_setReg_advance s x b⟩
  rwa [State.reg_advance, State.reg_setReg_self]

/-! ## The obligations -/

/-- Settles O28: each word is format XYN of its fields, and each instruction writes `V[x]` alone, with a byte whose bits are those
of the bitwise operation. -/
theorem copyAndLogic : Obligations.CopyAndLogic := by
  intro x y s
  refine ⟨decode_ofNat_8xyn x y 0, decode_ofNat_8xyn x y 1, decode_ofNat_8xyn x y 2, decode_ofNat_8xyn x y 3,
    fun hf => ⟨?copy, ?or, ?and, ?xor⟩⟩
  case copy => exact completes_setReg_advance (· = s.reg y) (exec_ldReg x y s) hf rfl
  case or =>
    exact completes_setReg_advance (fun r => ∀ b, b < 8 → r.getLsbD b = ((s.reg x).getLsbD b || (s.reg y).getLsbD b))
      (exec_orReg x y s) hf fun _ _ => BitVec.getLsbD_or
  case and =>
    exact completes_setReg_advance (fun r => ∀ b, b < 8 → r.getLsbD b = ((s.reg x).getLsbD b && (s.reg y).getLsbD b))
      (exec_andReg x y s) hf fun _ _ => BitVec.getLsbD_and
  case xor =>
    exact completes_setReg_advance (fun r => ∀ b, b < 8 → r.getLsbD b = ((s.reg x).getLsbD b ^^ (s.reg y).getLsbD b))
      (exec_xorReg x y s) hf fun _ _ => BitVec.getLsbD_xor

/-- Settles O27: each word is format XKK of its fields, and each instruction writes `V[x]` alone; addition of bytes is modulo 256. -/
theorem loadAndAddImmediate : Obligations.LoadAndAddImmediate := by
  intro x kk s
  have h6 := formXKK_eq_ofNat 0x6 x kk
  have h7 := formXKK_eq_ofNat 0x7 x kk
  refine ⟨?_, ?_, fun hf => ⟨?load, ?add⟩⟩
  · exact h6 ▸ decode_formXKK_6 x kk
  · exact h7 ▸ decode_formXKK_7 x kk
  case load => exact completes_setReg_advance (· = kk) (exec_ldImm x kk s) hf rfl
  case add =>
    exact completes_setReg_advance (fun r => r.toNat = ((s.reg x).toNat + kk.toNat) % 256) (exec_addImm x kk s) hf
      (BitVec.toNat_add _ _)

end Sys2Proof.Machine


/-! # Index register and memory: loads and sums of `I`, and the block moves at `I` (43_index_memory.md R160 to R165) -/

namespace Sys2Proof

/-! ## The words of families A and F (30_encoding.md R72, R75) -/

/-- Family A loads the index register (30_encoding.md R75). -/
theorem decode_formNNN_A (nnn : Addr) : decode (formNNN 0xA nnn) = .ok (.ldI nnn) := by
  simp [decode]

/-- In family F the low byte decides (30_encoding.md R74). -/
theorem decode_formXKK_F (x : Reg) (kk : Byte) : decode (formXKK 0xF x kk) = decodeF x kk := by
  simp [decode]

/-- The word Fxkk, its low byte added to the family's base. -/
theorem decode_ofNat_Fxkk (x : Reg) (kk : Byte) :
    decode (BitVec.ofNat 16 (0xF000 + kk.toNat + 256 * x.val)) = decodeF x kk := by
  have hword : 0xF000 + kk.toNat + 256 * x.val = 4096 * (0xF : Nibble).toNat + 256 * x.val + kk.toNat := by
    have hF : (0xF : Nibble).toNat = 15 := rfl
    omega
  rw [hword, ← formXKK_eq_ofNat, decode_formXKK_F]

end Sys2Proof

namespace Sys2Proof.Machine

/-! ## Instructions that write `I` and advance (43_index_memory.md R160 to R162) -/

theorem exec_ldI (nnn : Addr) (s : State) :
    exec (.ldI nnn) s = .next ({ s with i := zext16 nnn } : State).advance := rfl

theorem frame_setIndex (s : State) (w : Word) : FrameExcept (fun p => p = .i) s { s with i := w } := by
  intro p hp
  cases p with
  | i => exact absurd rfl hp
  | _ => rfl

/-- An instruction that writes a word to `I` and advances completes, and nothing but `I` and `pc` is written. -/
theorem completes_setIndex_advance {instr : Instr} {s : State} {w : Word} {n : Nat}
    (he : exec instr s = .next ({ s with i := w } : State).advance) (hf : s.fetchable) (hw : w.toNat = n) :
    ∃ t, exec instr s = .next t ∧ t.i.toNat = n ∧ t.pc.toNat = s.pc.toNat + 2 ∧
      FrameExcept (fun p => p = .pc ∨ p = .i) s t :=
  ⟨_, he, hw, State.advance_toNat { s with i := w } hf,
    ((frame_setIndex s w).mono fun _ h => .inr h).trans ((frame_advance _).mono fun _ h => .inl h)⟩

/-- A sum that names an address is not reduced to 16 bits (43_index_memory.md R161). -/
theorem add_byte16_toNat (w : Word) (b : Byte) (h : w.toNat + b.toNat < 4096) :
    (w + byte16 b).toNat = w.toNat + b.toNat := by
  rw [BitVec.toNat_add, byte16_toNat]
  omega

/-! ## Instructions that store a block at `I` and advance (43_index_memory.md R163, R164) -/

/-- A block store writes the bytes of its block and no other part. -/
theorem frame_writeBytes (s : State) (a : Nat) (bytes : List Byte) :
    FrameExcept (fun p => ∃ b, a ≤ b ∧ b < a + bytes.length ∧ p = .byte b) s
      { s with mem := s.mem.writeBytes a bytes } := by
  intro p hp
  cases p with
  | byte b =>
    have hout : b < a ∨ a + bytes.length ≤ b := by
      by_contra hin
      exact hp ⟨b, by omega, by omega, rfl⟩
    exact Memory.read_writeBytes_outside s.mem a b bytes hout
  | _ => rfl

/-- An instruction that stores a block inside memory and advances completes, each byte of the block reads as it was stored, and
nothing but the block and `pc` is written. -/
theorem completes_writeBytes_advance {instr : Instr} {s : State} {a : Nat} {bytes : List Byte}
    (he : exec instr s = .next ({ s with mem := s.mem.writeBytes a bytes } : State).advance)
    (hm : s.mem.wf) (hf : s.fetchable) (ha : a + bytes.length ≤ 4096) :
    ∃ t, exec instr s = .next t ∧ (∀ j (hj : j < bytes.length), t.mem.read (a + j) = bytes[j]) ∧
      t.pc.toNat = s.pc.toNat + 2 ∧ FrameExcept (writesBytes a (a + bytes.length)) s t :=
  ⟨_, he, fun j hj => Memory.read_writeBytes_inside s.mem a j bytes hm ha hj,
    State.advance_toNat { s with mem := s.mem.writeBytes a bytes } hf,
    ((frame_writeBytes s a bytes).mono fun _ h => .inr h).trans ((frame_advance _).mono fun _ h => .inl h)⟩

@[simp] theorem length_bcd (b : Byte) : (bcd b).length = 3 := rfl

/-- The three digits as numbers: none needs more than a byte (43_index_memory.md R163). -/
theorem bcd_toNat (b : Byte) :
    (bcd b)[0].toNat = b.toNat / 100 ∧ (bcd b)[1].toNat = b.toNat / 10 % 10 ∧ (bcd b)[2].toNat = b.toNat % 10 := by
  have hb := b.isLt
  refine ⟨?_, ?_, ?_⟩ <;>
    · simp only [bcd, List.getElem_cons_zero, List.getElem_cons_succ, BitVec.toNat_ofNat]
      omega

/-! ## Fx65 (43_index_memory.md R165) -/

/-- The registers after Fx65: `V[0]` to `V[x]` read the block, the others what they held. -/
theorem Regs.getElem_fill_readBytes (v : Regs) (m : Memory) (a : Nat) (x j : Reg) :
    (Regs.fill v (m.readBytes a (x.val + 1)) 0)[j] = if j ≤ x then m.read (a + j.val) else v[j] := by
  have hlen : 0 + (m.readBytes a (x.val + 1)).length ≤ 16 := by
    rw [Memory.length_readBytes]; omega
  rw [Fin.getElem_fin, Regs.getElem_fill v _ 0 j.val j.isLt hlen]
  have hin : (0 ≤ j.val ∧ j.val < 0 + (m.readBytes a (x.val + 1)).length) ↔ j ≤ x := by
    rw [Memory.length_readBytes, Fin.le_def]; omega
  by_cases hj : j ≤ x
  · rw [dif_pos (hin.mpr hj), if_pos hj, Memory.getElem_readBytes, Nat.sub_zero]
  · rw [dif_neg (mt hin.mp hj), if_neg hj, Fin.getElem_fin]

/-- Loading a block into the registers from `V[0]` writes `V[0]` to `V[x]` and no other part. -/
theorem frame_fill (s : State) (a : Nat) (x : Reg) :
    FrameExcept (fun p => ∃ j : Reg, j ≤ x ∧ p = .reg j) s
      { s with v := Regs.fill s.v (s.mem.readBytes a (x.val + 1)) 0 } := by
  intro p hp
  cases p with
  | reg j =>
    have hj : ¬ j ≤ x := fun h => hp ⟨j, h, rfl⟩
    exact (Regs.getElem_fill_readBytes s.v s.mem a x j).trans (if_neg hj)
  | _ => rfl

/-- Fx65 inside memory loads the block at `I` (43_index_memory.md R165). -/
theorem reg_of_exec_ldRegs {x : Reg} {s u : State} (h : s.i.toNat + x.val < 4096) (he : exec (.ldRegs x) s = .next u)
    (j : Reg) (hj : j ≤ x) : u.reg j = s.mem.read (s.i.toNat + j.val) := by
  obtain rfl : _ = u := by simpa only [exec_ldRegs_ok x s h, Host.Outcome.next.injEq] using he
  exact (Regs.getElem_fill_readBytes s.v s.mem s.i.toNat x j).trans (if_pos hj)

/-- Fx55 inside memory leaves `I` and stores `V[0]` to `V[x]` there (43_index_memory.md R164). -/
theorem read_of_exec_stRegs {x : Reg} {s t : State} (hm : s.mem.wf) (h : s.i.toNat + x.val < 4096)
    (he : exec (.stRegs x) s = .next t) : t.i = s.i ∧ ∀ j : Reg, j ≤ x → t.mem.read (s.i.toNat + j.val) = s.reg j := by
  obtain rfl : _ = t := by simpa only [exec_stRegs_ok x s h, Host.Outcome.next.injEq] using he
  refine ⟨rfl, fun j hj => ?_⟩
  have hlen := Regs.length_upTo s.v x
  have hjx : j.val < (s.v.upTo x).length := by rw [hlen]; exact Nat.lt_succ_of_le hj
  exact (Memory.read_writeBytes_inside s.mem s.i.toNat j.val (s.v.upTo x) hm (by omega) hjx).trans
    (Regs.getElem_upTo s.v x j.val hjx)

/-! ## The obligations -/

/-- Settles O33: the word is format NNN of its fields, and `nnn` zero-extended is the same number. -/
theorem loadIndex : Obligations.LoadIndex := by
  intro nnn s
  have hA := formNNN_eq_ofNat 0xA nnn
  exact ⟨hA ▸ decode_formNNN_A nnn, fun hf => completes_setIndex_advance (exec_ldI nnn s) hf (zext16_toNat nnn)⟩

/-- Settles O34: below 4096 the 16-bit sum is the integer sum, and `I` and `pc` alone are written. -/
theorem addToIndex : Obligations.AddToIndex := by
  intro x s
  refine ⟨decode_ofNat_Fxkk x 0x1E, fun hf h => ?_, exec_addI_fault x s⟩
  exact completes_setIndex_advance (exec_addI_ok x s h) hf (add_byte16_toNat s.i (s.reg x) h)

/-- Settles O35: a digit up to 15 names a glyph at five times its number, and `I` and `pc` alone are written. -/
theorem pointAtGlyph : Obligations.PointAtGlyph := by
  intro x s
  refine ⟨decode_ofNat_Fxkk x 0x29, fun hf h => ?_, exec_ldF_fault x s⟩
  have hw : (BitVec.ofNat 16 (5 * (s.reg x).toNat)).toNat = 5 * (s.reg x).toNat := by
    rw [BitVec.toNat_ofNat]; omega
  exact completes_setIndex_advance (exec_ldF_ok x s h) hf hw

/-- Settles O36: the block stored at `I` is the three digits, and each byte of a stored block reads as it was stored. -/
theorem storeDecimalDigits : Obligations.StoreDecimalDigits := by
  intro x s
  refine ⟨decode_ofNat_Fxkk x 0x33, fun hm hf h => ?_, exec_ldB_fault x s⟩
  obtain ⟨t, he, hread, hpc, hframe⟩ := completes_writeBytes_advance (exec_ldB_ok x s h) hm hf h
  obtain ⟨h100, h10, h1⟩ := bcd_toNat (s.reg x)
  refine ⟨t, he, ?_, ?_, ?_, hpc, hframe⟩
  · exact (congrArg BitVec.toNat (hread 0 (by simp))).trans h100
  · exact (congrArg BitVec.toNat (hread 1 (by simp))).trans h10
  · exact (congrArg BitVec.toNat (hread 2 (by simp))).trans h1

/-- Settles O37: the block stored at `I` is `V[0]` to `V[x]`, and each byte of a stored block reads as it was stored. -/
theorem storeRegisters : Obligations.StoreRegisters := by
  intro x s
  refine ⟨decode_ofNat_Fxkk x 0x55, fun hm hf h => ?_, exec_stRegs_fault x s⟩
  have hlen := Regs.length_upTo s.v x
  obtain ⟨t, he, -, hpc, hframe⟩ := completes_writeBytes_advance (exec_stRegs_ok x s h) hm hf (by omega)
  obtain ⟨-, hread⟩ := read_of_exec_stRegs hm h he
  rw [hlen] at hframe
  exact ⟨t, he, hread, hpc, hframe⟩

/-- Settles O38: Fx65 reads the block at `I`, and after Fx55 that block is `V[0]` to `V[x]`, `I` being what it was. -/
theorem loadRegisters : Obligations.LoadRegisters := by
  intro x s
  refine ⟨decode_ofNat_Fxkk x 0x65, fun hf h => ?load, exec_ldRegs_fault x s, fun t u v hm h hst hld j hj => ?roundTrip⟩
  case load =>
    have he := exec_ldRegs_ok x s h
    exact ⟨_, he, reg_of_exec_ldRegs h he, State.advance_toNat { s with v := _ } hf,
      ((frame_fill s s.i.toNat x).mono fun _ hp => .inr hp).trans ((frame_advance _).mono fun _ hp => .inl hp)⟩
  case roundTrip =>
    obtain ⟨hi, hread⟩ := read_of_exec_stRegs hm h hst
    have hload := reg_of_exec_ldRegs (s := { t with v := v }) (by rw [hi]; exact h) hld j hj
    rw [hload, hi, hread j hj]

end Sys2Proof.Machine


/-! # Display: clearing the screen (44_display.md R180) -/

namespace Sys2Proof.Machine

/-! ## 00E0 -/

/-- The state with every cell 0 and DIRTY 1 (44_display.md R180), `pc` not yet moved. -/
def State.clearScreen (s : State) : State := { s with fb := Vector.replicate 32 0, dirty := true }

theorem exec_cls (s : State) : exec .cls s = .next s.clearScreen.advance := rfl

@[simp] theorem State.cell_clearScreen (s : State) (n : Nat) : s.clearScreen.fb.cell n = false :=
  Framebuffer.pixel_clear (n % 64) (n / 64)

/-- Clearing the screen writes cells and DIRTY and no other part, VF with the rest. -/
theorem frame_clearScreen (s : State) :
    FrameExcept (fun p => p = .dirty ∨ ∃ n, p = .cell n) s s.clearScreen := by
  intro p hp
  cases p with
  | dirty => exact absurd (.inl rfl) hp
  | cell n => exact absurd (.inr ⟨n, rfl⟩) hp
  | _ => rfl

/-! ## The obligation -/

/-- Settles O40: 00E0 clears the screen and advances, and a cleared framebuffer has no cell set. -/
theorem clearScreen : Obligations.ClearScreen := by
  refine ⟨by decide, fun s hf => ⟨_, exec_cls s, fun n _ => s.cell_clearScreen n, rfl, ?pc, ?frame⟩⟩
  case pc => exact s.clearScreen.advance_toNat hf
  case frame =>
    exact ((frame_clearScreen s).mono fun _ h => .inr h).trans ((frame_advance _).mono fun _ h => .inl h)

end Sys2Proof.Machine


/-! # Timers: the moves to and from DT and ST, and the tick of the same step (45_keys_timers.md R193 to R195) -/

namespace Sys2Proof.Machine

/-! ## The arms of `exec` -/

theorem exec_ldVxDt (x : Reg) (s : State) : exec (.ldVxDt x) s = .next (s.setReg x s.dt).advance := rfl

theorem exec_ldDtVx (x : Reg) (s : State) :
    exec (.ldDtVx x) s = .next ({ s with dt := s.reg x } : State).advance := rfl

theorem exec_ldStVx (x : Reg) (s : State) :
    exec (.ldStVx x) s = .next ({ s with st := s.reg x } : State).advance := rfl

/-! ## Writes to a timer -/

theorem frame_setDelay (s : State) (b : Byte) : FrameExcept (fun p => p = .dt) s { s with dt := b } := by
  intro p hp
  cases p with
  | dt => exact absurd rfl hp
  | _ => rfl

theorem frame_setSound (s : State) (b : Byte) : FrameExcept (fun p => p = .st) s { s with st := b } := by
  intro p hp
  cases p with
  | st => exact absurd rfl hp
  | _ => rfl

/-- An instruction that writes one part `q` and advances leaves every part but `q` and `pc`. -/
theorem frame_write_advance {q : Part} {s u : State} (h : FrameExcept (fun p => p = q) s u) :
    FrameExcept (fun p => p = .pc ∨ p = q) s u.advance :=
  (h.mono fun _ hp => .inr hp).trans ((frame_advance u).mono fun _ hp => .inl hp)

/-! ## The tick at the end of a step (40_step_cycle.md R97) -/

/-- A step whose instruction completes in `u` without a fault keeps the registers of `u` and takes each of its timers down by
one, never below 0. -/
theorem step_ticks_after_exec {instr : Instr} {s u : State} (h : s.fault = none) (hf : s.fetchable)
    (hd : decode s.wordAtPc = .ok instr) (he : exec instr (s.latchOpc s.wordAtPc) = .next u) (hu : u.fault = none) :
    ∃ t, step s = .next t ∧ (∀ y : Reg, t.reg y = u.reg y) ∧ t.dt.toNat = u.dt.toNat - 1 ∧ t.st.toNat = u.st.toNat - 1 := by
  have hstep : step s = .next u.tick := by
    rw [step_of_instr s u h hf instr hd he, s.endStep_ok u hu]
  exact ⟨u.tick, hstep, u.reg_tick, tickDown_toNat u.dt, tickDown_toNat u.st⟩

/-! ## The obligation -/

/-- Settles O45: each word is format XKK of its fields, each move writes its register or timer and advances, and the step's tick
then acts on the timers the move has left. -/
theorem timerMoves : Obligations.TimerMoves := by
  intro x s
  refine ⟨decode_ofNat_Fxkk x 0x07, decode_ofNat_Fxkk x 0x15, decode_ofNat_Fxkk x 0x18,
    fun hf => ⟨?readDelay, ?setDelay, ?setSound⟩, fun hf h => ⟨fun hd => ?stepRead, fun hd => ?stepDelay, fun hd => ?stepSound⟩⟩
  case readDelay => exact completes_setReg_advance (· = s.dt) (exec_ldVxDt x s) hf rfl
  case setDelay =>
    exact ⟨_, exec_ldDtVx x s, rfl, State.advance_toNat { s with dt := s.reg x } hf,
      frame_write_advance (frame_setDelay s _)⟩
  case setSound =>
    exact ⟨_, exec_ldStVx x s, rfl, State.advance_toNat { s with st := s.reg x } hf,
      frame_write_advance (frame_setSound s _)⟩
  case stepRead =>
    obtain ⟨t, hstep, hreg, hdt, hst⟩ := step_ticks_after_exec h hf hd (exec_ldVxDt x _) h
    exact ⟨t, hstep, (hreg x).trans (State.reg_setReg_self _ x s.dt), hdt, hst⟩
  case stepDelay =>
    obtain ⟨t, hstep, -, hdt, hst⟩ := step_ticks_after_exec h hf hd (exec_ldDtVx x _) h
    exact ⟨t, hstep, hdt, hst⟩
  case stepSound =>
    obtain ⟨t, hstep, -, hdt, hst⟩ := step_ticks_after_exec h hf hd (exec_ldStVx x _) h
    exact ⟨t, hstep, hst, hdt⟩

end Sys2Proof.Machine


/-! # Exceptions: which fault the latch holds after a step (60_exceptions.md R211 to R216) -/

namespace Sys2Proof.Machine

/-! ## The instruction's own fault (60_exceptions.md R212 to R214) -/

/-- An instruction that raises `kind` where its check `c` fires, and otherwise leaves the latch, leaves it as the check says. -/
theorem fault_of_checked {instr : Instr} {s t : State} {c : Prop} [Decidable c] {kind : FaultKind}
    (h : s.fault = none) (he : exec instr s = .next t) (hfires : c → exec instr s = .next (s.raise kind))
    (hpasses : ¬ c → ∃ u, exec instr s = .next u ∧ u.fault = s.fault) :
    t.fault = if c then some kind else none := by
  by_cases hc : c
  · obtain rfl : t = s.raise kind := Host.Outcome.next.inj (he.symm.trans (hfires hc))
    rw [if_pos hc, State.raise_fault]
  · obtain ⟨u, hu, hfault⟩ := hpasses hc
    obtain rfl : t = u := Host.Outcome.next.inj (he.symm.trans hu)
    rw [if_neg hc, hfault, h]

/-- The latch after an instruction holds what the instruction's row of the fault table says. -/
theorem fault_of_exec {instr : Instr} {s t : State} (h : s.fault = none) (he : exec instr s = .next t) :
    t.fault = instrFault instr s := by
  cases instr with
  | ret =>
    exact fault_of_checked h he (exec_ret_fault s) fun hc => ⟨_, exec_ret_ok s (Nat.pos_of_ne_zero hc), rfl⟩
  | call nnn =>
    exact fault_of_checked h he (exec_call_fault nnn s) fun hc => ⟨_, exec_call_ok nnn s (by omega), rfl⟩
  | drw x y n =>
    exact fault_of_checked h he (exec_drw_fault x y n s) fun hc => ⟨_, exec_drw_ok x y n s (Nat.le_of_not_gt hc), rfl⟩
  | addI x =>
    exact fault_of_checked h he (exec_addI_fault x s) fun hc => ⟨_, exec_addI_ok x s (Nat.lt_of_not_ge hc), rfl⟩
  | ldF x =>
    exact fault_of_checked h he (exec_ldF_fault x s) fun hc => ⟨_, exec_ldF_ok x s (Nat.le_of_not_gt hc), rfl⟩
  | ldB x =>
    exact fault_of_checked h he (exec_ldB_fault x s) fun hc => ⟨_, exec_ldB_ok x s (Nat.lt_of_not_ge hc), rfl⟩
  | stRegs x =>
    exact fault_of_checked h he (exec_stRegs_fault x s) fun hc => ⟨_, exec_stRegs_ok x s (Nat.lt_of_not_ge hc), rfl⟩
  | ldRegs x =>
    exact fault_of_checked h he (exec_ldRegs_fault x s) fun hc => ⟨_, exec_ldRegs_ok x s (Nat.lt_of_not_ge hc), rfl⟩
  | skp x =>
    exact fault_of_checked h he (exec_skp_fault x s) fun hc =>
      ⟨_, exec_skp_ok x ⟨(s.reg x).toNat, by omega⟩ s rfl, rfl⟩
  | sknp x =>
    exact fault_of_checked h he (exec_sknp_fault x s) fun hc =>
      ⟨_, exec_sknp_ok x ⟨(s.reg x).toNat, by omega⟩ s rfl, rfl⟩
  | ldVxK x =>
    cases hk : s.lowestKey with
    | some key =>
      obtain rfl := Host.Outcome.next.inj (he.symm.trans (exec_ldVxK_pressed x key s hk))
      exact h
    | none =>
      simp only [exec, execLdVxK, hk, Host.Outcome.next.injEq] at he
      exact he ▸ h
  | _ =>
    obtain rfl := Host.Outcome.next.inj he
    exact h

/-- No row of the fault table looks at OPC. -/
theorem instrFault_latchOpc (instr : Instr) (s : State) (op : Word) :
    instrFault instr (s.latchOpc op) = instrFault instr s := rfl

/-- `StackUnderflow` stands in the row of 00EE alone (60_exceptions.md R213). -/
theorem instrFault_eq_stackUnderflow_iff (instr : Instr) (s : State) :
    instrFault instr s = some .stackUnderflow ↔ instr = .ret ∧ s.sp.val = 0 := by
  cases instr <;> simp [instrFault]

/-- `StackOverflow` stands in the row of 2nnn alone (60_exceptions.md R214). -/
theorem instrFault_eq_stackOverflow_iff (instr : Instr) (s : State) :
    instrFault instr s = some .stackOverflow ↔ (∃ nnn, instr = .call nnn) ∧ s.sp.val = 16 := by
  cases instr <;> simp [instrFault]

/-! ## The fault of a step (60_exceptions.md R216) -/

/-- The end of a step keeps the latch the instruction left. -/
@[simp] theorem State.endStep_latch (s u : State) : (s.endStep u).fault = u.fault := by
  cases hu : u.fault with
  | none => rw [s.endStep_ok u hu, State.tick_fault, hu]
  | some kind => rw [s.endStep_fault u kind hu, State.raise_fault]

/-- The latch after a step holds what the fault table says: fetch first, then decode, then the instruction. -/
theorem fault_of_step {s t : State} (h : s.fault = none) (hstep : step s = .next t) : t.fault = stepFault s := by
  obtain ⟨hhalted, -⟩ | ⟨-, hf, rfl⟩ | ⟨-, hf, ⟨r, hd⟩, rfl⟩ | ⟨-, hf, instr, u, hd, he, rfl⟩ := step_cases s t hstep
  · exact absurd h hhalted
  · rw [stepFault, if_pos (Nat.le_of_not_lt hf), State.raise_fault]
  · rw [stepFault, if_neg (Nat.not_le_of_lt hf), hd, State.raise_fault]
  · have hu : u.fault = instrFault instr (s.latchOpc s.wordAtPc) := fault_of_exec h he
    rw [stepFault, if_neg (Nat.not_le_of_lt hf), hd, State.endStep_latch, hu, instrFault_latchOpc]

/-- A fault that neither the fetch nor the decoder raises is the decoded instruction's own. -/
theorem stepFault_eq_instr_iff {s : State} {kind : FaultKind} (hb : kind ≠ .outOfBounds) (hd : kind ≠ .decodeError) :
    stepFault s = some kind ↔ s.fetchable ∧ ∃ instr, decode s.wordAtPc = .ok instr ∧ instrFault instr s = some kind := by
  by_cases hf : s.fetchable
  · rw [stepFault, if_neg (Nat.not_le_of_lt hf)]
    cases decode s.wordAtPc with
    | error r => simp [hd.symm]
    | ok instr => simp [hf]
  · rw [stepFault, if_pos (Nat.le_of_not_lt hf)]
    simp [hf, hb.symm]

/-! ## The obligation -/

/-- Settles O13: the latch follows the fault table, in which each of the two stack faults stands in one instruction's row. -/
theorem stackFaultsExactlyAtTheEnds : Obligations.StackFaultsExactlyAtTheEnds := by
  intro s t h hstep
  rw [fault_of_step h hstep, stepFault_eq_instr_iff (by decide) (by decide),
    stepFault_eq_instr_iff (by decide) (by decide)]
  constructor
  · simp only [instrFault_eq_stackUnderflow_iff]
    exact ⟨fun ⟨hf, _, hd, hret, hsp⟩ => ⟨hf, hret ▸ hd, hsp⟩, fun ⟨hf, hd, hsp⟩ => ⟨hf, _, hd, rfl, hsp⟩⟩
  · simp only [instrFault_eq_stackOverflow_iff]
    exact ⟨fun ⟨hf, _, hd, ⟨nnn, hcall⟩, hsp⟩ => ⟨hf, ⟨nnn, hcall ▸ hd⟩, hsp⟩,
      fun ⟨hf, ⟨nnn, hd⟩, hsp⟩ => ⟨hf, _, hd, ⟨nnn, rfl⟩, hsp⟩⟩

end Sys2Proof.Machine


/-! # The decoder and the encoder over all instructions and all words (30_encoding.md) -/

namespace Sys2Proof

/-! ## The words of families 2, B, C, D and E (30_encoding.md R72, R75) -/

/-- Family 2 is the call (30_encoding.md R75). -/
theorem decode_formNNN_2 (nnn : Addr) : decode (formNNN 0x2 nnn) = .ok (.call nnn) := by
  simp [decode]

/-- Family B is the jump with offset (30_encoding.md R75). -/
theorem decode_formNNN_B (nnn : Addr) : decode (formNNN 0xB nnn) = .ok (.jpV0 nnn) := by
  simp [decode]

/-- Family C is the random byte (30_encoding.md R75). -/
theorem decode_formXKK_C (x : Reg) (kk : Byte) : decode (formXKK 0xC x kk) = .ok (.rnd x kk) := by
  simp [decode]

/-- Family D is the draw (30_encoding.md R75). -/
theorem decode_formXYN_D (x y : Reg) (n : Nibble) : decode (formXYN 0xD x y n) = .ok (.drw x y n) := by
  simp [decode]

/-- In family E the low byte decides (30_encoding.md R74). -/
theorem decode_formXKK_E (x : Reg) (kk : Byte) : decode (formXKK 0xE x kk) = decodeE x kk := by
  simp [decode]

/-- Settles O2: each instruction's word is a form of its operands, and the family of the form decodes to it. -/
theorem decodeOfEncode : Obligations.DecodeOfEncode := by
  intro instr
  cases instr with
  | cls => decide
  | ret => decide
  | jp nnn => exact decode_formNNN_1 nnn
  | call nnn => exact decode_formNNN_2 nnn
  | seImm x kk => exact decode_formXKK_3 x kk
  | sneImm x kk => exact decode_formXKK_4 x kk
  | seReg x y => exact decode_formXYN_5 x y 0x0
  | ldImm x kk => exact decode_formXKK_6 x kk
  | addImm x kk => exact decode_formXKK_7 x kk
  | ldReg x y => exact decode_formXYN_8 x y 0x0
  | orReg x y => exact decode_formXYN_8 x y 0x1
  | andReg x y => exact decode_formXYN_8 x y 0x2
  | xorReg x y => exact decode_formXYN_8 x y 0x3
  | addReg x y => exact decode_formXYN_8 x y 0x4
  | subReg x y => exact decode_formXYN_8 x y 0x5
  | shr x y => exact decode_formXYN_8 x y 0x6
  | subnReg x y => exact decode_formXYN_8 x y 0x7
  | shl x y => exact decode_formXYN_8 x y 0xE
  | sneReg x y => exact decode_formXYN_9 x y 0x0
  | ldI nnn => exact decode_formNNN_A nnn
  | jpV0 nnn => exact decode_formNNN_B nnn
  | rnd x kk => exact decode_formXKK_C x kk
  | drw x y n => exact decode_formXYN_D x y n
  | skp x => exact decode_formXKK_E x 0x9E
  | sknp x => exact decode_formXKK_E x 0xA1
  | ldVxDt x => exact decode_formXKK_F x 0x07
  | ldVxK x => exact decode_formXKK_F x 0x0A
  | ldDtVx x => exact decode_formXKK_F x 0x15
  | ldStVx x => exact decode_formXKK_F x 0x18
  | addI x => exact decode_formXKK_F x 0x1E
  | ldF x => exact decode_formXKK_F x 0x29
  | ldB x => exact decode_formXKK_F x 0x33
  | stRegs x => exact decode_formXKK_F x 0x55
  | ldRegs x => exact decode_formXKK_F x 0x65

/-! ## From a word back to its instruction -/

theorem encode_of_decode0 {op : Word} {instr : Instr} (h : decode0 op = .ok instr) : encode instr = op := by
  unfold decode0 at h
  split at h
  · cases h; rfl
  · cases h; rfl
  · cases h

theorem encode_of_decode5 {x y : Reg} {n : Nibble} {instr : Instr} (h : decode5 x y n = .ok instr) :
    encode instr = formXYN 0x5 x y n := by
  unfold decode5 at h
  split at h <;> cases h
  rfl

theorem encode_of_decode8 {x y : Reg} {n : Nibble} {instr : Instr} (h : decode8 x y n = .ok instr) :
    encode instr = formXYN 0x8 x y n := by
  unfold decode8 at h
  split at h <;> cases h <;> rfl

theorem encode_of_decode9 {x y : Reg} {n : Nibble} {instr : Instr} (h : decode9 x y n = .ok instr) :
    encode instr = formXYN 0x9 x y n := by
  unfold decode9 at h
  split at h <;> cases h
  rfl

theorem encode_of_decodeE {x : Reg} {kk : Byte} {instr : Instr} (h : decodeE x kk = .ok instr) :
    encode instr = formXKK 0xE x kk := by
  unfold decodeE at h
  split at h <;> cases h <;> rfl

theorem encode_of_decodeF {x : Reg} {kk : Byte} {instr : Instr} (h : decodeF x kk = .ok instr) :
    encode instr = formXKK 0xF x kk := by
  unfold decodeF at h
  split at h <;> cases h <;> rfl


/-- How the decoder reads a word, one case per family nibble (30_encoding.md R74). -/
inductive Family (op : Word) : Prop where
  | family0 (hF : fieldF op = 0x0) (hd : decode op = decode0 op)
  | jp (hF : fieldF op = 0x1) (hd : decode op = .ok (.jp (fieldNNN op)))
  | call (hF : fieldF op = 0x2) (hd : decode op = .ok (.call (fieldNNN op)))
  | seImm (hF : fieldF op = 0x3) (hd : decode op = .ok (.seImm (fieldX op) (fieldKK op)))
  | sneImm (hF : fieldF op = 0x4) (hd : decode op = .ok (.sneImm (fieldX op) (fieldKK op)))
  | family5 (hF : fieldF op = 0x5) (hd : decode op = decode5 (fieldX op) (fieldY op) (fieldN op))
  | ldImm (hF : fieldF op = 0x6) (hd : decode op = .ok (.ldImm (fieldX op) (fieldKK op)))
  | addImm (hF : fieldF op = 0x7) (hd : decode op = .ok (.addImm (fieldX op) (fieldKK op)))
  | family8 (hF : fieldF op = 0x8) (hd : decode op = decode8 (fieldX op) (fieldY op) (fieldN op))
  | family9 (hF : fieldF op = 0x9) (hd : decode op = decode9 (fieldX op) (fieldY op) (fieldN op))
  | ldI (hF : fieldF op = 0xA) (hd : decode op = .ok (.ldI (fieldNNN op)))
  | jpV0 (hF : fieldF op = 0xB) (hd : decode op = .ok (.jpV0 (fieldNNN op)))
  | rnd (hF : fieldF op = 0xC) (hd : decode op = .ok (.rnd (fieldX op) (fieldKK op)))
  | drw (hF : fieldF op = 0xD) (hd : decode op = .ok (.drw (fieldX op) (fieldY op) (fieldN op)))
  | familyE (hF : fieldF op = 0xE) (hd : decode op = decodeE (fieldX op) (fieldKK op))
  | familyF (hF : fieldF op = 0xF) (hd : decode op = decodeF (fieldX op) (fieldKK op))

/-- Every word belongs to a family. -/
theorem family_of_word (op : Word) : Family op := by
  have hd : decode op = decode op := rfl
  conv at hd => rhs; unfold decode
  split at hd
  next hF => exact .family0 hF hd
  next hF => exact .jp hF hd
  next hF => exact .call hF hd
  next hF => exact .seImm hF hd
  next hF => exact .sneImm hF hd
  next hF => exact .family5 hF hd
  next hF => exact .ldImm hF hd
  next hF => exact .addImm hF hd
  next hF => exact .family8 hF hd
  next hF => exact .family9 hF hd
  next hF => exact .ldI hF hd
  next hF => exact .jpV0 hF hd
  next hF => exact .rnd hF hd
  next hF => exact .drw hF hd
  next hF => exact .familyE hF hd
  next =>
    simp only [← BitVec.toNat_inj, imp_false, BitVec.toNat_ofNat] at *
    have hF : (fieldF op).toNat = 15 := by omega
    exact .familyF (BitVec.eq_of_toNat_eq hF) hd

theorem formNNN_of_fieldF {op : Word} {f : Nibble} (hF : fieldF op = f) : formNNN f (fieldNNN op) = op :=
  hF ▸ formNNN_fields op

theorem formXKK_of_fieldF {op : Word} {f : Nibble} (hF : fieldF op = f) : formXKK f (fieldX op) (fieldKK op) = op :=
  hF ▸ formXKK_fields op

theorem formXYN_of_fieldF {op : Word} {f : Nibble} (hF : fieldF op = f) :
    formXYN f (fieldX op) (fieldY op) (fieldN op) = op :=
  hF ▸ formXYN_fields op

/-- Settles O3: the decoder takes its operands from the fields, and a word is the form of its own fields. -/
theorem encodeOfDecode : Obligations.EncodeOfDecode := by
  intro op instr h
  cases family_of_word op with
  | family0 hF hd => exact encode_of_decode0 (hd ▸ h)
  | family5 hF hd => exact (encode_of_decode5 (hd ▸ h)).trans (formXYN_of_fieldF hF)
  | family8 hF hd => exact (encode_of_decode8 (hd ▸ h)).trans (formXYN_of_fieldF hF)
  | family9 hF hd => exact (encode_of_decode9 (hd ▸ h)).trans (formXYN_of_fieldF hF)
  | familyE hF hd => exact (encode_of_decodeE (hd ▸ h)).trans (formXKK_of_fieldF hF)
  | familyF hF hd => exact (encode_of_decodeF (hd ▸ h)).trans (formXKK_of_fieldF hF)
  | jp hF hd | call hF hd | ldI hF hd | jpV0 hF hd =>
    obtain rfl := Except.ok.inj (hd.symm.trans h)
    exact formNNN_of_fieldF hF
  | seImm hF hd | sneImm hF hd | ldImm hF hd | addImm hF hd | rnd hF hd =>
    obtain rfl := Except.ok.inj (hd.symm.trans h)
    exact formXKK_of_fieldF hF
  | drw hF hd =>
    obtain rfl := Except.ok.inj (hd.symm.trans h)
    exact formXYN_of_fieldF hF

/-! ## The opcode map (30_encoding.md R74, R75) -/

/-- Every instruction's word lies in the row of its own mnemonic. -/
theorem rowOfWord (instr : Instr) : Laws.RowOfWord.Statement instr := by
  cases instr with
  | cls => exact Laws.RowOfWord.cls
  | ret => exact Laws.RowOfWord.ret
  | jp nnn => exact Laws.RowOfWord.jp nnn
  | call nnn => exact Laws.RowOfWord.call nnn
  | seImm x kk => exact Laws.RowOfWord.seImm x kk
  | sneImm x kk => exact Laws.RowOfWord.sneImm x kk
  | seReg x y => exact Laws.RowOfWord.seReg x y
  | ldImm x kk => exact Laws.RowOfWord.ldImm x kk
  | addImm x kk => exact Laws.RowOfWord.addImm x kk
  | ldReg x y => exact Laws.RowOfWord.ldReg x y
  | orReg x y => exact Laws.RowOfWord.orReg x y
  | andReg x y => exact Laws.RowOfWord.andReg x y
  | xorReg x y => exact Laws.RowOfWord.xorReg x y
  | addReg x y => exact Laws.RowOfWord.addReg x y
  | subReg x y => exact Laws.RowOfWord.subReg x y
  | shr x y => exact Laws.RowOfWord.shr x y
  | subnReg x y => exact Laws.RowOfWord.subnReg x y
  | shl x y => exact Laws.RowOfWord.shl x y
  | sneReg x y => exact Laws.RowOfWord.sneReg x y
  | ldI nnn => exact Laws.RowOfWord.ldI nnn
  | jpV0 nnn => exact Laws.RowOfWord.jpV0 nnn
  | rnd x kk => exact Laws.RowOfWord.rnd x kk
  | drw x y n => exact Laws.RowOfWord.drw x y n
  | skp x => exact Laws.RowOfWord.skp x
  | sknp x => exact Laws.RowOfWord.sknp x
  | ldVxDt x => exact Laws.RowOfWord.ldVxDt x
  | ldVxK x => exact Laws.RowOfWord.ldVxK x
  | ldDtVx x => exact Laws.RowOfWord.ldDtVx x
  | ldStVx x => exact Laws.RowOfWord.ldStVx x
  | addI x => exact Laws.RowOfWord.addI x
  | ldF x => exact Laws.RowOfWord.ldF x
  | ldB x => exact Laws.RowOfWord.ldB x
  | stRegs x => exact Laws.RowOfWord.stRegs x
  | ldRegs x => exact Laws.RowOfWord.ldRegs x

/-- The map says of its own values what it says of the words it covers. -/
theorem mnemonic_decode_value :
    ∀ row ∈ opcodeMap, (decode row.value).map Instr.mnemonic = .ok row.mnemonic := by decide

/-- The mask of a row fixes every bit the decoder selects by in the row's family (30_encoding.md R74). -/
theorem mask_fixes_selectors : ∀ row ∈ opcodeMap,
    fieldF row.mask = 0xF ∧
    (fieldF row.value = 0x0 → row.mask = 0xFFFF) ∧
    (fieldF row.value = 0x5 ∨ fieldF row.value = 0x8 ∨ fieldF row.value = 0x9 → fieldN row.mask = 0xF) ∧
    (fieldF row.value = 0xE ∨ fieldF row.value = 0xF → fieldKK row.mask = 0xFF) := by decide

theorem mnemonic_decode5 (x y x' y' : Reg) (n : Nibble) :
    (decode5 x y n).map Instr.mnemonic = (decode5 x' y' n).map Instr.mnemonic := by
  unfold decode5
  split <;> rfl

theorem mnemonic_decode8 (x y x' y' : Reg) (n : Nibble) :
    (decode8 x y n).map Instr.mnemonic = (decode8 x' y' n).map Instr.mnemonic := by
  unfold decode8
  split <;> rfl

theorem mnemonic_decode9 (x y x' y' : Reg) (n : Nibble) :
    (decode9 x y n).map Instr.mnemonic = (decode9 x' y' n).map Instr.mnemonic := by
  unfold decode9
  split <;> rfl

theorem mnemonic_decodeE (x x' : Reg) (kk : Byte) :
    (decodeE x kk).map Instr.mnemonic = (decodeE x' kk).map Instr.mnemonic := by
  unfold decodeE
  split <;> rfl

theorem mnemonic_decodeF (x x' : Reg) (kk : Byte) :
    (decodeF x kk).map Instr.mnemonic = (decodeF x' kk).map Instr.mnemonic := by
  unfold decodeF
  split <;> rfl

/-- Words that agree in the bits their family selects by decode to the same mnemonic, or are both illegal. -/
theorem mnemonic_decode_congr {op v : Word} (hF : fieldF op = fieldF v)
    (h0 : fieldF v = 0x0 → op = v)
    (hN : fieldF v = 0x5 ∨ fieldF v = 0x8 ∨ fieldF v = 0x9 → fieldN op = fieldN v)
    (hK : fieldF v = 0xE ∨ fieldF v = 0xF → fieldKK op = fieldKK v) :
    (decode op).map Instr.mnemonic = (decode v).map Instr.mnemonic := by
  cases family_of_word v with
  | family0 hv hd => rw [h0 hv]
  | family5 hv hd =>
    rw [hd, ← hN (.inl hv), decode, hF, hv]
    exact mnemonic_decode5 ..
  | family8 hv hd =>
    rw [hd, ← hN (.inr (.inl hv)), decode, hF, hv]
    exact mnemonic_decode8 ..
  | family9 hv hd =>
    rw [hd, ← hN (.inr (.inr hv)), decode, hF, hv]
    exact mnemonic_decode9 ..
  | familyE hv hd =>
    rw [hd, ← hK (.inl hv), decode, hF, hv]
    exact mnemonic_decodeE ..
  | familyF hv hd =>
    rw [hd, ← hK (.inr hv), decode, hF, hv]
    exact mnemonic_decodeF ..
  | jp hv hd | call hv hd | seImm hv hd | sneImm hv hd | ldImm hv hd | addImm hv hd | ldI hv hd | jpV0 hv hd | rnd hv hd
  | drw hv hd =>
    rw [hd, decode, hF, hv]
    rfl

theorem fieldF_and (op m : Word) : fieldF (op &&& m) = fieldF op &&& fieldF m := by
  apply BitVec.eq_of_getLsbD_eq
  intro j hj
  simp [fieldF, hj]

theorem fieldN_and (op m : Word) : fieldN (op &&& m) = fieldN op &&& fieldN m := by
  apply BitVec.eq_of_getLsbD_eq
  intro j hj
  simp [fieldN, hj]

theorem fieldKK_and (op m : Word) : fieldKK (op &&& m) = fieldKK op &&& fieldKK m := by
  apply BitVec.eq_of_getLsbD_eq
  intro j hj
  simp [fieldKK, hj]

/-- A word that a row of the map covers decodes to an instruction of the row's mnemonic. -/
theorem mnemonic_decode_of_row {op : Word} {row : OpcodeRow} (hrow : row ∈ opcodeMap) (h : op &&& row.mask = row.value) :
    (decode op).map Instr.mnemonic = .ok row.mnemonic := by
  obtain ⟨hF, h0, hN, hK⟩ := mask_fixes_selectors row hrow
  rw [← mnemonic_decode_value row hrow]
  refine mnemonic_decode_congr ?_ (fun hv => ?_) (fun hv => ?_) (fun hv => ?_)
  · rw [← h, fieldF_and, hF]; exact BitVec.and_allOnes.symm
  · rw [← h, h0 hv]; exact BitVec.and_allOnes.symm
  · rw [← h, fieldN_and, hN hv]; exact BitVec.and_allOnes.symm
  · rw [← h, fieldKK_and, hK hv]; exact BitVec.and_allOnes.symm

/-- Settles O4: a decoded word is the word of its instruction, which lies in that instruction's row; and a covered word decodes as
the value of its row does. -/
theorem decoderFollowsTheOpcodeMap : Obligations.DecoderFollowsTheOpcodeMap := by
  intro op
  constructor
  · intro instr hd
    obtain ⟨row, hrow, hname, hcovers⟩ := rowOfWord instr
    rw [encodeOfDecode op instr hd, OpcodeRow.covers, beq_iff_eq] at hcovers
    exact ⟨row, hrow, hname, hcovers⟩
  · intro row hrow hcovers
    have hname := mnemonic_decode_of_row hrow hcovers
    cases hd : decode op with
    | error r => rw [hd] at hname; cases hname
    | ok instr => rw [hd] at hname; exact ⟨instr, rfl, Except.ok.inj hname⟩

/-- Two rows that agree on the bits both of them fix are the same row. -/
theorem row_eq_of_common_bits :
    ∀ r ∈ opcodeMap, ∀ q ∈ opcodeMap, r.value &&& q.mask = q.value &&& r.mask → r = q := by decide

/-- Settles O5: on the bits that two covering rows both fix, the word shows the value of each. -/
theorem opcodeRowsAreDisjoint : Obligations.OpcodeRowsAreDisjoint := by
  intro op r hr q hq hcr hcq
  refine row_eq_of_common_bits r hr q hq ?_
  rw [← hcr, ← hcq, BitVec.and_assoc, BitVec.and_assoc, BitVec.and_comm r.mask]

/-- The illegal words are those the decoder rejects. -/
theorem legalWord_eq_false_iff (op : Word) : legalWord op = false ↔ ∃ r, decode op = .error r := by
  obtain ⟨hrow, hinstr⟩ := decoderFollowsTheOpcodeMap op
  simp only [legalWord, List.any_eq_false, OpcodeRow.covers, beq_iff_eq]
  constructor
  · intro h
    cases hd : decode op with
    | error r => exact ⟨r, rfl⟩
    | ok instr =>
      obtain ⟨row, hmem, -, hcovers⟩ := hrow instr hd
      exact absurd hcovers (h row hmem)
  · rintro ⟨r, hd⟩ row hmem hcovers
    obtain ⟨instr, hok, -⟩ := hinstr row hmem hcovers
    cases hd.symm.trans hok

/-! ## The illegal words by family (30_encoding.md R76) -/

theorem decode0_error_iff (op : Word) :
    (∃ r, decode0 op = .error r) ↔ op.toNat ≠ 0x00E0 ∧ op.toNat ≠ 0x00EE := by
  unfold decode0
  split
  case h_3 => simp_all [← BitVec.toNat_inj]
  all_goals simp

theorem decode5_error_iff (x y : Reg) (n : Nibble) : (∃ r, decode5 x y n = .error r) ↔ n.toNat ≠ 0 := by
  unfold decode5
  split
  case h_2 => simp_all [← BitVec.toNat_inj]
  all_goals simp

theorem decode8_error_iff (x y : Reg) (n : Nibble) :
    (∃ r, decode8 x y n = .error r) ↔ n.toNat ∈ [8, 9, 10, 11, 12, 13, 15] := by
  unfold decode8
  split
  case h_10 =>
    simp only [← BitVec.toNat_inj, imp_false, BitVec.toNat_ofNat, Except.error.injEq, exists_eq', true_iff, List.mem_cons,
      List.not_mem_nil, or_false] at *
    omega
  all_goals simp

theorem decode9_error_iff (x y : Reg) (n : Nibble) : (∃ r, decode9 x y n = .error r) ↔ n.toNat ≠ 0 := by
  unfold decode9
  split
  case h_2 => simp_all [← BitVec.toNat_inj]
  all_goals simp

theorem decodeE_error_iff (x : Reg) (kk : Byte) : (∃ r, decodeE x kk = .error r) ↔ kk.toNat ∉ [0x9E, 0xA1] := by
  unfold decodeE
  split
  case h_3 => simp_all [← BitVec.toNat_inj]
  all_goals simp

theorem decodeF_error_iff (x : Reg) (kk : Byte) : (∃ r, decodeF x kk = .error r) ↔
    kk.toNat ∉ [0x07, 0x0A, 0x15, 0x18, 0x1E, 0x29, 0x33, 0x55, 0x65] := by
  unfold decodeF
  split
  case h_10 => simp_all [← BitVec.toNat_inj]
  all_goals simp

/-- Settles O6: the family nibble is the word divided by 4096, and within a family the selecting field decides. -/
theorem illegalWordsByFamily : Obligations.IllegalWordsByFamily := by
  intro op
  have hdiv := fieldF_toNat op
  cases family_of_word op with
  | family0 hF hd =>
    rw [hF] at hdiv
    rw [hd, decode0_error_iff]
    simp [← hdiv]
  | family5 hF hd =>
    rw [hF] at hdiv
    rw [hd, decode5_error_iff, fieldN_toNat]
    simp [← hdiv]
  | family8 hF hd =>
    rw [hF] at hdiv
    rw [hd, decode8_error_iff, fieldN_toNat]
    simp [← hdiv]
  | family9 hF hd =>
    rw [hF] at hdiv
    rw [hd, decode9_error_iff, fieldN_toNat]
    simp [← hdiv]
  | familyE hF hd =>
    rw [hF] at hdiv
    rw [hd, decodeE_error_iff, fieldKK_toNat]
    simp [← hdiv]
  | familyF hF hd =>
    rw [hF] at hdiv
    rw [hd, decodeF_error_iff, fieldKK_toNat]
    simp [← hdiv]
  | jp hF hd | call hF hd | seImm hF hd | sneImm hF hd | ldImm hF hd | addImm hF hd | ldI hF hd | jpV0 hF hd | rnd hF hd
  | drw hF hd =>
    rw [hF] at hdiv
    simp [hd, ← hdiv]

/-- Settles O1: eight written-out words, decoded. -/
theorem writtenOutWordsDecode : Obligations.WrittenOutWordsDecode := by
  unfold Obligations.WrittenOutWordsDecode
  decide

end Sys2Proof


/-! # What an instruction and a step do, and what they leave unchanged (10_state.md R36, 40_step_cycle.md R90 to R99) -/

namespace Sys2Proof.Machine

/-! ## The arms of `exec` that no lemma above names -/

theorem exec_addReg (x y : Reg) (s : State) : exec (.addReg x y) s =
    .next (s.setResultThenFlag x (s.reg x + s.reg y) (carry (s.reg x) (s.reg y))).advance := rfl

theorem exec_subReg (x y : Reg) (s : State) : exec (.subReg x y) s =
    .next (s.setResultThenFlag x (s.reg x - s.reg y) (noBorrow (s.reg x) (s.reg y))).advance := rfl

theorem exec_subnReg (x y : Reg) (s : State) : exec (.subnReg x y) s =
    .next (s.setResultThenFlag x (s.reg y - s.reg x) (noBorrow (s.reg y) (s.reg x))).advance := rfl

theorem exec_shr (x y : Reg) (s : State) : exec (.shr x y) s =
    .next (s.setFlagThenResult x (s.reg x >>> 1) (lowBit (s.reg x))).advance := rfl

theorem exec_shl (x y : Reg) (s : State) : exec (.shl x y) s =
    .next (s.setFlagThenResult x (s.reg x <<< 1) (highBit (s.reg x))).advance := rfl

theorem exec_jpV0 (nnn : Addr) (s : State) :
    exec (.jpV0 nnn) s = .next (s.jump (zext16 nnn + byte16 (s.reg 0))) := rfl

theorem exec_rnd (x : Reg) (kk : Byte) (s : State) : exec (.rnd x kk) s =
    .next ({ s.setReg x (Config.freeRnd s.draws &&& kk) with draws := s.draws + 1 } : State).advance := rfl

/-! ## The state an instruction leaves when it raises no fault -/

/-- `Completes s instr t`: from `s` the instruction raises no fault, for its check on plain integers passes, and leaves `t`. -/
inductive Completes (s : State) : Instr → State → Prop where
  | cls : Completes s .cls s.clearScreen.advance
  | ret (h : 0 < s.sp.val) : Completes s .ret
      (({ s with sp := ⟨s.sp.val - 1, by omega⟩ } : State).jump (s.stk[s.sp.val - 1]'(by omega) + 2))
  | jp (nnn : Addr) : Completes s (.jp nnn) (s.jump (zext16 nnn))
  | call (nnn : Addr) (h : s.sp.val < 16) : Completes s (.call nnn)
      (({ s with stk := s.stk.set s.sp.val s.pc, sp := ⟨s.sp.val + 1, by omega⟩ } : State).jump (zext16 nnn))
  | seImm (x : Reg) (kk : Byte) : Completes s (.seImm x kk) (s.skipIf (s.reg x == kk))
  | sneImm (x : Reg) (kk : Byte) : Completes s (.sneImm x kk) (s.skipIf (s.reg x != kk))
  | seReg (x y : Reg) : Completes s (.seReg x y) (s.skipIf (s.reg x == s.reg y))
  | ldImm (x : Reg) (kk : Byte) : Completes s (.ldImm x kk) (s.setReg x kk).advance
  | addImm (x : Reg) (kk : Byte) : Completes s (.addImm x kk) (s.setReg x (s.reg x + kk)).advance
  | ldReg (x y : Reg) : Completes s (.ldReg x y) (s.setReg x (s.reg y)).advance
  | orReg (x y : Reg) : Completes s (.orReg x y) (s.setReg x (s.reg x ||| s.reg y)).advance
  | andReg (x y : Reg) : Completes s (.andReg x y) (s.setReg x (s.reg x &&& s.reg y)).advance
  | xorReg (x y : Reg) : Completes s (.xorReg x y) (s.setReg x (s.reg x ^^^ s.reg y)).advance
  | addReg (x y : Reg) : Completes s (.addReg x y)
      (s.setResultThenFlag x (s.reg x + s.reg y) (carry (s.reg x) (s.reg y))).advance
  | subReg (x y : Reg) : Completes s (.subReg x y)
      (s.setResultThenFlag x (s.reg x - s.reg y) (noBorrow (s.reg x) (s.reg y))).advance
  | shr (x y : Reg) : Completes s (.shr x y) (s.setFlagThenResult x (s.reg x >>> 1) (lowBit (s.reg x))).advance
  | subnReg (x y : Reg) : Completes s (.subnReg x y)
      (s.setResultThenFlag x (s.reg y - s.reg x) (noBorrow (s.reg y) (s.reg x))).advance
  | shl (x y : Reg) : Completes s (.shl x y) (s.setFlagThenResult x (s.reg x <<< 1) (highBit (s.reg x))).advance
  | sneReg (x y : Reg) : Completes s (.sneReg x y) (s.skipIf (s.reg x != s.reg y))
  | ldI (nnn : Addr) : Completes s (.ldI nnn) ({ s with i := zext16 nnn } : State).advance
  | jpV0 (nnn : Addr) : Completes s (.jpV0 nnn) (s.jump (zext16 nnn + byte16 (s.reg 0)))
  | rnd (x : Reg) (kk : Byte) : Completes s (.rnd x kk)
      ({ s.setReg x (Config.freeRnd s.draws &&& kk) with draws := s.draws + 1 } : State).advance
  | drw (x y : Reg) (n : Nibble) (h : s.i.toNat + n.toNat ≤ 4096) : Completes s (.drw x y n)
      (({ s with fb := (drawBlit x y n s).fb, dirty := true } : State).setReg vf
        (flagByte (drawBlit x y n s).collision)).advance
  | skp (x key : Reg) (h : (s.reg x).toNat = key.val) : Completes s (.skp x) (s.skipIf s.k[key])
  | sknp (x key : Reg) (h : (s.reg x).toNat = key.val) : Completes s (.sknp x) (s.skipIf (!s.k[key]))
  | ldVxDt (x : Reg) : Completes s (.ldVxDt x) (s.setReg x s.dt).advance
  | ldVxKPressed (x key : Reg) (h : s.lowestKey = some key) : Completes s (.ldVxK x)
      (s.setReg x (BitVec.ofNat 8 key.val)).advance
  | ldVxKWaiting (x : Reg) (h : ∀ key : Reg, s.k[key] = false) : Completes s (.ldVxK x) s
  | ldDtVx (x : Reg) : Completes s (.ldDtVx x) ({ s with dt := s.reg x } : State).advance
  | ldStVx (x : Reg) : Completes s (.ldStVx x) ({ s with st := s.reg x } : State).advance
  | addI (x : Reg) (h : s.i.toNat + (s.reg x).toNat < 4096) : Completes s (.addI x)
      ({ s with i := s.i + byte16 (s.reg x) } : State).advance
  | ldF (x : Reg) (h : (s.reg x).toNat ≤ 15) : Completes s (.ldF x)
      ({ s with i := BitVec.ofNat 16 (5 * (s.reg x).toNat) } : State).advance
  | ldB (x : Reg) (h : s.i.toNat + 2 < 4096) : Completes s (.ldB x)
      ({ s with mem := s.mem.writeBytes s.i.toNat (bcd (s.reg x)) } : State).advance
  | stRegs (x : Reg) (h : s.i.toNat + x.val < 4096) : Completes s (.stRegs x)
      ({ s with mem := s.mem.writeBytes s.i.toNat (s.v.upTo x) } : State).advance
  | ldRegs (x : Reg) (h : s.i.toNat + x.val < 4096) : Completes s (.ldRegs x)
      ({ s with v := Regs.fill s.v (s.mem.readBytes s.i.toNat (x.val + 1)) 0 } : State).advance

/-- What completes is what `exec` answers. -/
theorem Completes.exec_eq {instr : Instr} {s t : State} (h : Completes s instr t) : exec instr s = .next t := by
  cases h with
  | ret h => exact exec_ret_ok s h
  | call nnn h => exact exec_call_ok nnn s h
  | drw x y n h => exact exec_drw_ok x y n s h
  | skp x key h => exact exec_skp_ok x key s h
  | sknp x key h => exact exec_sknp_ok x key s h
  | ldVxKPressed x key h => exact exec_ldVxK_pressed x key s h
  | ldVxKWaiting x h => exact exec_ldVxK_waiting x s h
  | addI x h => exact exec_addI_ok x s h
  | ldF x h => exact exec_ldF_ok x s h
  | ldB x h => exact exec_ldB_ok x s h
  | stRegs x h => exact exec_stRegs_ok x s h
  | ldRegs x h => exact exec_ldRegs_ok x s h
  | _ => rfl

/-- A row of the fault table that does not fire is a check that passes. -/
theorem not_of_check_none {c : Prop} [Decidable c] {kind : FaultKind} (h : (if c then some kind else none) = none) : ¬ c :=
  fun hc => by rw [if_pos hc] at h; cases h

/-- A row of the fault table that fires is the fault its check raises. -/
theorem raise_of_check_some {instr : Instr} {s : State} {c : Prop} [Decidable c] {k kind : FaultKind}
    (hfires : c → exec instr s = .next (s.raise k)) (h : (if c then some k else none) = some kind) :
    exec instr s = .next (s.raise kind) := by
  obtain ⟨hc, hk⟩ := Option.ite_none_right_eq_some.mp h
  exact Option.some.inj hk ▸ hfires hc

/-- Where the fault table names a fault, `exec` raises it. -/
theorem exec_of_instrFault {instr : Instr} {s : State} {kind : FaultKind} (h : instrFault instr s = some kind) :
    exec instr s = .next (s.raise kind) := by
  cases instr with
  | ret => exact raise_of_check_some (exec_ret_fault s) h
  | call nnn => exact raise_of_check_some (exec_call_fault nnn s) h
  | drw x y n => exact raise_of_check_some (exec_drw_fault x y n s) h
  | addI x => exact raise_of_check_some (exec_addI_fault x s) h
  | ldF x => exact raise_of_check_some (exec_ldF_fault x s) h
  | ldB x => exact raise_of_check_some (exec_ldB_fault x s) h
  | stRegs x => exact raise_of_check_some (exec_stRegs_fault x s) h
  | ldRegs x => exact raise_of_check_some (exec_ldRegs_fault x s) h
  | skp x => exact raise_of_check_some (exec_skp_fault x s) h
  | sknp x => exact raise_of_check_some (exec_sknp_fault x s) h
  | _ => cases h

/-- Where the fault table names none, the instruction completes. -/
theorem completes_of_instrFault {instr : Instr} {s : State} (h : instrFault instr s = none) :
    ∃ t, Completes s instr t := by
  cases instr with
  | ret => exact ⟨_, .ret (Nat.pos_of_ne_zero (not_of_check_none h))⟩
  | call nnn =>
    have hc : ¬ s.sp.val = 16 := not_of_check_none h
    exact ⟨_, .call nnn (by omega)⟩
  | drw x y n => exact ⟨_, .drw x y n (Nat.le_of_not_gt (not_of_check_none h))⟩
  | addI x => exact ⟨_, .addI x (Nat.lt_of_not_ge (not_of_check_none h))⟩
  | ldF x => exact ⟨_, .ldF x (Nat.le_of_not_gt (not_of_check_none h))⟩
  | ldB x => exact ⟨_, .ldB x (Nat.lt_of_not_ge (not_of_check_none h))⟩
  | stRegs x => exact ⟨_, .stRegs x (Nat.lt_of_not_ge (not_of_check_none h))⟩
  | ldRegs x => exact ⟨_, .ldRegs x (Nat.lt_of_not_ge (not_of_check_none h))⟩
  | skp x =>
    have hc : ¬ (s.reg x).toNat > 15 := not_of_check_none h
    exact ⟨_, .skp x ⟨(s.reg x).toNat, by omega⟩ rfl⟩
  | sknp x =>
    have hc : ¬ (s.reg x).toNat > 15 := not_of_check_none h
    exact ⟨_, .sknp x ⟨(s.reg x).toNat, by omega⟩ rfl⟩
  | ldVxK x =>
    by_cases hk : ∃ key : Reg, s.k[key] = true
    · obtain ⟨key, hkey⟩ := hk
      obtain ⟨low, hlow, -⟩ := s.lowestKey_some key hkey
      exact ⟨_, .ldVxKPressed x low hlow⟩
    · exact ⟨_, .ldVxKWaiting x fun key => Bool.eq_false_iff.mpr fun hkey => hk ⟨key, hkey⟩⟩
  | _ => exact ⟨_, by constructor⟩

/-- An instruction raises the fault of its row in the fault table, or completes. -/
theorem exec_cases {instr : Instr} {s t : State} (he : exec instr s = .next t) :
    (∃ kind, instrFault instr s = some kind ∧ t = s.raise kind) ∨ (instrFault instr s = none ∧ Completes s instr t) := by
  cases hi : instrFault instr s with
  | some kind => exact .inl ⟨kind, rfl, Host.Outcome.next.inj (he.symm.trans (exec_of_instrFault hi))⟩
  | none =>
    obtain ⟨u, hu⟩ := completes_of_instrFault hi
    obtain rfl : t = u := Host.Outcome.next.inj (he.symm.trans hu.exec_eq)
    exact .inr ⟨rfl, hu⟩

/-! ## What a completed instruction leaves unchanged -/

/-- The parts an instruction itself may write, the tick and the latches of the step apart: `pc`, its own timer, and its column of
10_state.md R36. -/
def execWrites (instr : Instr) (s : State) (p : Part) : Prop :=
  match p with
  | .opc | .fault => False
  | .dt => ∃ x, instr = .ldDtVx x
  | .st => ∃ x, instr = .ldStVx x
  | p => mayWrite instr s p

theorem mayWrite_of_execWrites {instr : Instr} {s : State} (p : Part) (h : execWrites instr s p) : mayWrite instr s p := by
  cases p <;> first | exact h | trivial

/-- A pop writes SP alone, the popped entry staying in the stack (10_state.md R25). -/
theorem frame_setSp (s : State) (sp : Fin 17) : FrameExcept (fun p => p = .sp) s { s with sp := sp } := by
  intro p hp
  cases p with
  | sp => exact absurd rfl hp
  | _ => rfl

/-- A push writes SP and the entry it names (10_state.md R25). -/
theorem frame_pushEntry (s : State) (j : Reg) (w : Word) (sp : Fin 17) :
    FrameExcept (fun p => p = .sp ∨ p = .stk j) s { s with stk := s.stk.set j w, sp := sp } := by
  intro p hp
  cases p with
  | sp => exact absurd (.inl rfl) hp
  | stk k =>
    have hk : j.val ≠ k.val := fun h => hp (.inr (congrArg Part.stk (Fin.ext h.symm)))
    exact Vector.getElem_set_ne j.isLt k.isLt hk
  | _ => rfl

/-- A draw writes cells and DIRTY. -/
theorem frame_setCells (s : State) (fb : Framebuffer) :
    FrameExcept (fun p => p = .dirty ∨ ∃ n, p = .cell n) s { s with fb := fb, dirty := true } := by
  intro p hp
  cases p with
  | dirty => exact absurd (.inl rfl) hp
  | cell n => exact absurd (.inr ⟨n, rfl⟩) hp
  | _ => rfl

theorem frame_setDraws (s : State) (n : Nat) : FrameExcept (fun p => p = .draws) s { s with draws := n } := by
  intro p hp
  cases p with
  | draws => exact absurd rfl hp
  | _ => rfl

section
variable {instr : Instr} {s u : State} {x : Reg} {r f : Byte}

/-- An instruction that writes only parts it may write, and then `pc`. -/
theorem frame_execWrites_jump (h : FrameExcept (execWrites instr s) s u) (w : Word) :
    FrameExcept (execWrites instr s) s (u.jump w) :=
  h.trans ((frame_jump u w).mono (by rintro _ rfl; trivial))

/-- An instruction that writes one register it may write, and advances. -/
theorem frame_execWrites_setReg (hx : mayWriteReg instr x) : FrameExcept (execWrites instr s) s (s.setReg x r).advance :=
  frame_execWrites_jump ((frame_setReg s x r).mono (by rintro _ rfl; exact hx)) _

theorem frame_execWrites_resultThenFlag (hx : mayWriteReg instr x) (h15 : mayWriteReg instr 15) :
    FrameExcept (execWrites instr s) s (s.setResultThenFlag x r f).advance :=
  frame_execWrites_jump ((frame_setResultThenFlag s x r f).mono (by rintro _ (rfl | rfl) <;> assumption)) _

theorem frame_execWrites_flagThenResult (hx : mayWriteReg instr x) (h15 : mayWriteReg instr 15) :
    FrameExcept (execWrites instr s) s (s.setFlagThenResult x r f).advance :=
  frame_execWrites_jump ((frame_setFlagThenResult s x r f).mono (by rintro _ (rfl | rfl) <;> assumption)) _

/-- An instruction that writes `I`, which it may write, and advances. -/
theorem frame_execWrites_setIndex (hi : execWrites instr s .i) (w : Word) :
    FrameExcept (execWrites instr s) s ({ s with i := w } : State).advance :=
  frame_execWrites_jump ((frame_setIndex s w).mono (by rintro _ rfl; exact hi)) _

end

/-- A completed instruction leaves every part it may not write. -/
theorem Completes.frame {instr : Instr} {s t : State} (h : Completes s instr t) : FrameExcept (execWrites instr s) s t := by
  cases h with
  | jp | jpV0 | seImm | sneImm | seReg | sneReg | skp | sknp => exact frame_execWrites_jump (.refl _ s) _
  | ldImm | addImm | ldReg | orReg | andReg | xorReg | ldVxDt | ldVxKPressed => exact frame_execWrites_setReg rfl
  | addReg | subReg | subnReg => exact frame_execWrites_resultThenFlag (.inl rfl) (.inr rfl)
  | shr | shl => exact frame_execWrites_flagThenResult (.inl rfl) (.inr rfl)
  | ldVxKWaiting => exact .refl _ s
  | ldI nnn => exact frame_execWrites_setIndex (.inl ⟨nnn, rfl⟩) _
  | addI x => exact frame_execWrites_setIndex (.inr (.inl ⟨x, rfl⟩)) _
  | ldF x => exact frame_execWrites_setIndex (.inr (.inr ⟨x, rfl⟩)) _
  | ldDtVx x => exact frame_execWrites_jump ((frame_setDelay s _).mono (by rintro _ rfl; exact ⟨x, rfl⟩)) _
  | ldStVx x => exact frame_execWrites_jump ((frame_setSound s _).mono (by rintro _ rfl; exact ⟨x, rfl⟩)) _
  | ret => exact frame_execWrites_jump ((frame_setSp s _).mono (by rintro _ rfl; exact .inl rfl)) _
  | call nnn hsp =>
    refine frame_execWrites_jump ((frame_pushEntry s ⟨s.sp.val, hsp⟩ s.pc _).mono ?_) _
    rintro _ (rfl | rfl)
    · exact .inr ⟨nnn, rfl⟩
    · exact ⟨⟨nnn, rfl⟩, rfl⟩
  | cls =>
    refine frame_execWrites_jump ((frame_setCells s _).mono ?_) _
    rintro _ (rfl | ⟨n, rfl⟩) <;> exact .inl rfl
  | drw x y n =>
    refine frame_execWrites_jump (((frame_setCells s _).mono ?cells).trans ((frame_setReg _ vf _).mono ?flag)) _
    case cells => rintro _ (rfl | ⟨m, rfl⟩) <;> exact .inr ⟨x, y, n, rfl⟩
    case flag => rintro _ rfl; rfl
  | rnd x kk =>
    refine frame_execWrites_jump (((frame_setReg s x _).mono ?byte).trans ((frame_setDraws _ _).mono ?draw)) _
    case byte => rintro _ rfl; rfl
    case draw => rintro _ rfl; exact ⟨x, kk, rfl⟩
  | ldB x =>
    refine frame_execWrites_jump ((frame_writeBytes s _ _).mono ?_) _
    rintro _ ⟨a, hlo, hhi, rfl⟩
    exact ⟨hlo, .inl ⟨⟨x, rfl⟩, hhi⟩⟩
  | stRegs x =>
    refine frame_execWrites_jump ((frame_writeBytes s _ _).mono ?_) _
    rintro _ ⟨a, hlo, hhi, rfl⟩
    rw [Regs.length_upTo] at hhi
    exact ⟨hlo, .inr ⟨x, rfl, hhi⟩⟩
  | ldRegs x =>
    refine frame_execWrites_jump ((frame_fill s _ x).mono ?_) _
    rintro _ ⟨j, hj, rfl⟩
    exact hj

theorem Completes.fault_eq {instr : Instr} {s t : State} (h : Completes s instr t) : t.fault = s.fault :=
  h.frame .fault id

/-! ## The step by its instruction -/

/-- A step of an instruction takes that instruction's fault from the start state, or completes it and ticks. -/
theorem step_instr_cases {s t : State} {instr : Instr} (h : s.fault = none) (hf : s.fetchable)
    (hd : decode s.wordAtPc = .ok instr) (hstep : step s = .next t) :
    (∃ kind, instrFault instr s = some kind ∧ t = s.raise kind) ∨
    (instrFault instr s = none ∧ ∃ u, Completes (s.latchOpc s.wordAtPc) instr u ∧ t = u.tick) := by
  obtain ⟨u, hu⟩ := exec_next instr (s.latchOpc s.wordAtPc)
  obtain rfl : t = s.endStep u := Host.Outcome.next.inj (hstep.symm.trans (step_of_instr s u h hf instr hd hu))
  obtain ⟨kind, hi, rfl⟩ | ⟨hi, hc⟩ := exec_cases hu
  · exact .inl ⟨kind, hi, rfl⟩
  · exact .inr ⟨hi, u, hc, s.endStep_ok u (hc.fault_eq.trans h)⟩

/-- A step of an instruction that ends without a fault has completed it and ticked. -/
theorem completes_of_step {s t : State} {instr : Instr} (h : s.fault = none) (hf : s.fetchable)
    (hd : decode s.wordAtPc = .ok instr) (hstep : step s = .next t) (ht : t.fault = none) :
    ∃ u, Completes (s.latchOpc s.wordAtPc) instr u ∧ t = u.tick := by
  obtain ⟨kind, -, rfl⟩ | ⟨-, hc⟩ := step_instr_cases h hf hd hstep
  · cases ht
  · exact hc

theorem step_next (s : State) : ∃ t, step s = .next t := by
  by_cases hh : s.fault = none
  · by_cases hf : s.fetchable
    · cases hd : decode s.wordAtPc with
      | error r => exact ⟨_, step_of_illegal s hh hf r hd⟩
      | ok instr =>
        obtain ⟨u, hu⟩ := exec_next instr (s.latchOpc s.wordAtPc)
        exact ⟨_, step_of_instr s u hh hf instr hd hu⟩
    · exact ⟨_, step_of_no_fetch s hh hf⟩
  · exact ⟨s, step_of_halted s ((State.halted_iff s).mpr hh)⟩

/-! ## The obligations on the step -/

/-- Settles O7: the step is `exec` on the state with OPC latched, then `endStep`, whose tick is the timers' rule written out. -/
theorem stepRunsTheDecodedInstruction : Obligations.StepRunsTheDecodedInstruction := by
  intro s t instr h hf hd he
  have hstep := step_of_instr s t h hf instr hd he
  exact ⟨fun ht => hstep.trans (congrArg _ (s.endStep_ok t ht)),
    fun kind ht => hstep.trans (congrArg _ (s.endStep_fault t kind ht))⟩

/-- Settles O8: `step` looks at the latch first. -/
theorem haltedStepChangesNothing : Obligations.HaltedStepChangesNothing :=
  fun s h => step_of_halted s ((State.halted_iff s).mpr h)

/-- Settles O9: the fetch answers where `pc + 1` is an address, and its two bytes make the big-endian word. -/
theorem fetchReadsTheWordOrFaults : Obligations.FetchReadsTheWordOrFaults := by
  intro s
  constructor
  · exact fun h hpc => step_of_no_fetch s h (Nat.not_lt_of_le hpc)
  · exact fun hpc => ⟨_, _, s.fetch_of_fetchable hpc, wordOfBytes_toNat _ _⟩

/-- No instruction of its own raises `DecodeError` (60_exceptions.md R211). -/
theorem instrFault_ne_decodeError (instr : Instr) (s : State) : instrFault instr s ≠ some .decodeError := by
  cases instr <;> simp [instrFault]

/-- `DecodeError` is the fault of a step exactly where the fetched word decodes to nothing. -/
theorem stepFault_eq_decodeError_iff (s : State) :
    stepFault s = some .decodeError ↔ s.fetchable ∧ ∃ r, decode s.wordAtPc = .error r := by
  by_cases hf : s.fetchable
  · rw [stepFault, if_neg (Nat.not_le_of_lt hf)]
    cases decode s.wordAtPc with
    | error r => simp [hf]
    | ok instr => simp [instrFault_ne_decodeError]
  · rw [stepFault, if_pos (Nat.le_of_not_lt hf)]
    simp [hf]

/-- Settles O10: the latch follows the fault table, and the words the decoder rejects are the illegal words of the map. -/
theorem decodeErrorExactlyOnIllegalWords : Obligations.DecodeErrorExactlyOnIllegalWords := by
  intro s t h hstep
  rw [fault_of_step h hstep, stepFault_eq_decodeError_iff, legalWord_eq_false_iff]

/-- Settles O11: every way a step can fault ends in `raise` from the start state. -/
theorem faultingStepWritesOnlyTheLatch : Obligations.FaultingStepWritesOnlyTheLatch := by
  intro s t kind h hstep ht
  obtain ⟨hhalted, -⟩ | ⟨-, -, rfl⟩ | ⟨-, -, -, rfl⟩ | ⟨-, -, instr, u, -, -, rfl⟩ := step_cases s t hstep
  · exact absurd h hhalted
  · exact congrArg s.raise (Option.some.inj ht)
  · exact congrArg s.raise (Option.some.inj ht)
  · rw [State.endStep_latch] at ht
    exact s.endStep_fault u kind ht

/-- Settles O12: a step always answers, and its latch follows the fault table. -/
theorem stepFaultsExactlyAsTheTableSays : Obligations.StepFaultsExactlyAsTheTableSays := by
  intro s h
  obtain ⟨t, hstep⟩ := step_next s
  exact ⟨t, hstep, fault_of_step h hstep⟩

/-- Settles O14: the instruction leaves each timer but that of Fx15 or Fx18, and the step then ticks both. -/
theorem timersTickOncePerStep : Obligations.TimersTickOncePerStep := by
  intro s t instr h hf hd hstep ht
  obtain ⟨u, hc, rfl⟩ := completes_of_step h hf hd hstep ht
  rw [State.tick_dt, State.tick_st, tickDown_toNat, tickDown_toNat]
  refine ⟨?setDelay, fun hne => ?keepDelay, ?setSound, fun hne => ?keepSound⟩
  case setDelay => rintro x rfl; cases hc; rfl
  case keepDelay =>
    have hdt : u.dt = s.dt := hc.frame .dt fun ⟨x, hx⟩ => hne x hx
    rw [hdt]
  case setSound => rintro x rfl; cases hc; rfl
  case keepSound =>
    have hst : u.st = s.st := hc.frame .st fun ⟨x, hx⟩ => hne x hx
    rw [hst]

/-- Settles O16: a fault writes the latch alone, and a completed instruction what its column of the access table names. -/
theorem eachPartHasOnlyItsWriters : Obligations.EachPartHasOnlyItsWriters := by
  intro s t instr h hf hd hstep
  obtain ⟨kind, -, rfl⟩ | ⟨-, u, hc, rfl⟩ := step_instr_cases h hf hd hstep
  · exact (frame_raise s kind).mono (by rintro _ rfl; trivial)
  · have hopc : FrameExcept (mayWrite instr s) s (s.latchOpc s.wordAtPc) :=
      (frame_latchOpc s _).mono (by rintro _ rfl; trivial)
    have htick : FrameExcept (mayWrite instr s) u u.tick := (frame_tick u).mono (by rintro _ (rfl | rfl) <;> trivial)
    have hinstr : FrameExcept (mayWrite instr s) (s.latchOpc s.wordAtPc) u := hc.frame.mono mayWrite_of_execWrites
    exact (hopc.trans hinstr).trans htick

/-- Settles O17: the two display instructions set DIRTY, and no other may write it. -/
theorem dirtyIsSetExactlyByTheDisplayInstructions : Obligations.DirtyIsSetExactlyByTheDisplayInstructions := by
  intro s t instr h hf hd hstep ht
  obtain ⟨u, hc, rfl⟩ := completes_of_step h hf hd hstep ht
  constructor
  · rintro (rfl | ⟨x, y, n, rfl⟩) <;> cases hc <;> rfl
  · exact fun hne => hc.frame .dirty hne

/-- The random stream's position takes part in no completed instruction but Cxkk. -/
theorem Completes.withDraws {instr : Instr} {s t : State} (h : Completes s instr t) (hr : ∀ x kk, instr ≠ .rnd x kk)
    (n : Nat) : Completes { s with draws := n } instr { t with draws := n } := by
  cases h with
  | rnd x kk => exact absurd rfl (hr x kk)
  | ret h => exact .ret (s := { s with draws := n }) h
  | call nnn h => exact .call (s := { s with draws := n }) nnn h
  | drw x y m h => exact .drw (s := { s with draws := n }) x y m h
  | skp x key h => exact .skp (s := { s with draws := n }) x key h
  | sknp x key h => exact .sknp (s := { s with draws := n }) x key h
  | ldVxKPressed x key h => exact .ldVxKPressed (s := { s with draws := n }) x key h
  | ldVxKWaiting x h => exact .ldVxKWaiting (s := { s with draws := n }) x h
  | addI x h => exact .addI (s := { s with draws := n }) x h
  | ldF x h => exact .ldF (s := { s with draws := n }) x h
  | ldB x h => exact .ldB (s := { s with draws := n }) x h
  | stRegs x h => exact .stRegs (s := { s with draws := n }) x h
  | ldRegs x h => exact .ldRegs (s := { s with draws := n }) x h
  | _ => constructor

/-- Settles O18: neither the fault table nor a completed instruction but Cxkk looks at the stream's position. -/
theorem onlyRndReadsTheRandomInput : Obligations.OnlyRndReadsTheRandomInput := by
  intro s t instr n hr he
  obtain ⟨kind, hi, rfl⟩ | ⟨-, hc⟩ := exec_cases he
  · exact exec_of_instrFault (s := { s with draws := n }) hi
  · exact (hc.withDraws hr n).exec_eq

/-- A jump to its own address leaves the state. -/
theorem exec_jp_self (nnn : Addr) (s : State) (h : nnn.toNat = s.pc.toNat) : exec (.jp nnn) s = .next s := by
  have hpc : zext16 nnn = s.pc := BitVec.eq_of_toNat_eq ((zext16_toNat nnn).trans h)
  rw [exec_jp, hpc]
  rfl

/-- Settles O19: the jump leaves the state, to which the step adds the word in OPC and the tick. -/
theorem selfJumpLeavesAllButTheTimers : Obligations.SelfJumpLeavesAllButTheTimers := by
  intro s nnn h hf hd hpc
  have hstep := step_of_instr s _ h hf _ hd (exec_jp_self nnn (s.latchOpc s.wordAtPc) hpc)
  rw [s.endStep_ok (s.latchOpc s.wordAtPc) h] at hstep
  refine ⟨_, hstep, ((frame_latchOpc s _).mono fun _ hp => .inr (.inr hp)).trans ((frame_tick _).mono ?_)⟩
  rintro _ (hdt | hst)
  · exact .inl hdt
  · exact .inr (.inl hst)

/-! ## `pc` after a step (40_step_cycle.md R95) -/

theorem skipIf_pcAfterSkip {s : State} (hf : s.fetchable) {b : Bool} {c : Prop} [Decidable c] (hbc : b = true ↔ c) :
    (s.skipIf b).pc.toNat = pcAfterSkip s c := by
  rw [s.skipIf_toNat b hf, pcAfterSkip]
  exact if_congr hbc rfl rfl

/-- The level of the key a register names, as the program-counter table states it. -/
theorem keyLevel_iff {s : State} {x key : Reg} (hkey : (s.reg x).toNat = key.val) (b : Bool) :
    s.k[key] = b ↔ ∃ k : Reg, k.val = (s.reg x).toNat ∧ s.k[k] = b := by
  constructor
  · exact fun h => ⟨key, hkey.symm, h⟩
  · rintro ⟨k, hk, h⟩
    obtain rfl : k = key := Fin.ext (hk.trans hkey)
    exact h

/-- The key `lowestKey` finds is pressed. -/
theorem State.pressed_of_lowestKey {s : State} {key : Reg} (h : s.lowestKey = some key) : s.k[key] = true :=
  (firstPressed_some s.k allKeys (by decide) key h).1

/-- A completed instruction leaves `pc` where the table says, as a plain integer, if 00EE finds the address of a fetched word. -/
theorem Completes.pc_toNat {instr : Instr} {s t : State} (h : Completes s instr t) (hf : s.fetchable)
    (hstk : ∀ j : Reg, j.val < s.sp.val → (s.stk[j]).toNat ≤ 0x0FFE) : t.pc.toNat = pcAfter instr s := by
  cases h with
  | jp nnn | call nnn => exact zext16_toNat nnn
  | jpV0 nnn =>
    have hn := nnn.isLt
    have hb := (s.reg 0).isLt
    rw [State.jump_pc, BitVec.toNat_add, zext16_toNat, byte16_toNat, pcAfter]
    omega
  | ret hsp =>
    have hle : (s.stk[s.sp.val - 1]).toNat ≤ 0x0FFE := hstk ⟨s.sp.val - 1, by omega⟩ (Nat.sub_lt hsp Nat.one_pos)
    rw [State.jump_pc, pcAfter, dif_pos hsp]
    bv_omega
  | seImm x kk => exact skipIf_pcAfterSkip hf beq_iff_eq
  | sneImm x kk => exact skipIf_pcAfterSkip hf bne_iff_ne
  | seReg x y => exact skipIf_pcAfterSkip hf beq_iff_eq
  | sneReg x y => exact skipIf_pcAfterSkip hf bne_iff_ne
  | skp x key hkey => exact skipIf_pcAfterSkip hf (keyLevel_iff hkey true)
  | sknp x key hkey => exact skipIf_pcAfterSkip hf ((iff_of_eq (Bool.not_eq_true' _)).trans (keyLevel_iff hkey false))
  | ldVxKPressed x key hk =>
    have hpressed : ∃ key : Reg, s.k[key] = true := ⟨key, s.pressed_of_lowestKey hk⟩
    rw [pcAfter, if_pos hpressed]
    exact State.advance_toNat _ hf
  | ldVxKWaiting x hk =>
    have hn : ¬ ∃ key : Reg, s.k[key] = true := fun ⟨key, hkey⟩ => by rw [hk key] at hkey; cases hkey
    exact (if_neg hn).symm
  | _ => exact s.advance_toNat hf

/-- Settles O15: every fault keeps `pc`, and the table does not look at OPC, which alone the step writes before the instruction. -/
theorem pcFollowsTheTable : Obligations.PcFollowsTheTable := by
  intro s t hinv h hstep
  constructor
  · intro ht
    obtain ⟨kind, hkind⟩ := Option.ne_none_iff_exists'.mp ht
    rw [faultingStepWritesOnlyTheLatch s t kind h hstep hkind]
  · intro instr hf hd ht
    obtain ⟨u, hc, rfl⟩ := completes_of_step h hf hd hstep ht
    exact hc.pc_toNat hf hinv.stack_le

end Sys2Proof.Machine


/-! # The invariants of every state that steps and transactions bring about (10_state.md R35) -/

namespace Sys2Proof.Machine

/-! ## A completed instruction keeps each invariant -/

/-- Fx33 and Fx55 store inside memory, and nothing else writes it. -/
theorem Completes.mem_wf {instr : Instr} {s t : State} (h : Completes s instr t) (hm : s.mem.wf) : t.mem.wf := by
  cases h with
  | ldB x hx => exact Memory.writeBytes_wf s.mem _ _ hm hx
  | stRegs x hx =>
    have hlen := Regs.length_upTo s.v x
    exact Memory.writeBytes_wf s.mem _ _ hm (by omega)
  | _ => exact hm

/-- Annn, Fx1E and Fx29 leave an address in `I`, and nothing else writes it. -/
theorem Completes.index_le {instr : Instr} {s t : State} (h : Completes s instr t) (hi : s.i.toNat ≤ 0x0FFF) :
    t.i.toNat ≤ 0x0FFF := by
  cases h with
  | ldI nnn =>
    have hn := nnn.isLt
    rw [State.advance_i, zext16_toNat]
    omega
  | addI x hx =>
    rw [State.advance_i, add_byte16_toNat s.i (s.reg x) hx]
    omega
  | ldF x hx =>
    rw [State.advance_i, BitVec.toNat_ofNat]
    exact (Nat.mod_le _ _).trans (by omega)
  | _ => exact hi

/-- No row of the program-counter table passes 10FE, the highest target of Bnnn. -/
theorem pcAfter_le (instr : Instr) {s : State} (h : s.Inv) (hf : s.fetchable) : pcAfter instr s ≤ 0x10FE := by
  have hskip : ∀ (c : Prop) [Decidable c], pcAfterSkip s c ≤ 0x10FE := by
    intro c _
    rw [pcAfterSkip]
    split <;> omega
  cases instr with
  | seImm | sneImm | seReg | sneReg | skp | sknp => exact hskip _
  | jp nnn | call nnn =>
    have hn := nnn.isLt
    rw [pcAfter]
    omega
  | jpV0 nnn =>
    have hn := nnn.isLt
    have hb := (s.reg 0).isLt
    rw [pcAfter]
    omega
  | ret =>
    rw [pcAfter]
    split
    next hsp =>
      have hle : (s.stk[s.sp.val - 1]).toNat ≤ 0x0FFE := h.stack_le ⟨s.sp.val - 1, by omega⟩ (Nat.sub_lt hsp Nat.one_pos)
      omega
    next => exact h.pc_le
  | ldVxK x =>
    rw [pcAfter]
    split <;> omega
  | _ =>
    rw [pcAfter]
    omega

/-- 2nnn pushes the `pc` of a fetched word, 00EE frees an entry, and nothing else touches the stack. -/
theorem Completes.stack_le {instr : Instr} {s t : State} (h : Completes s instr t) (hf : s.fetchable)
    (hs : ∀ j : Reg, j.val < s.sp.val → (s.stk[j]).toNat ≤ 0x0FFE) :
    ∀ j : Reg, j.val < t.sp.val → (t.stk[j]).toNat ≤ 0x0FFE := by
  cases h with
  | ret hsp => exact fun j hj => hs j (Nat.lt_of_lt_of_le hj (Nat.sub_le ..))
  | call nnn hsp =>
    intro j hj
    rcases Nat.lt_succ_iff_lt_or_eq.mp hj with hold | hnew
    · have hkeep : (s.stk.set s.sp.val s.pc)[j.val] = s.stk[j.val] :=
        Vector.getElem_set_ne hsp j.isLt (Nat.ne_of_gt hold)
      exact (congrArg BitVec.toNat hkeep).trans_le (hs j hold)
    · have hpush : (s.stk.set s.sp.val s.pc)[j.val] = s.pc := by simp only [hnew, Vector.getElem_set_self]
      exact (congrArg BitVec.toNat hpush).trans_le (Nat.le_of_lt_succ (Nat.lt_of_succ_lt_succ hf))
  | _ => exact hs

/-- A completed instruction keeps the invariants. -/
theorem Completes.inv {instr : Instr} {s t : State} (hc : Completes s instr t) (h : s.Inv) (hf : s.fetchable) : t.Inv where
  mem_wf := hc.mem_wf h.mem_wf
  index_le := hc.index_le h.index_le
  pc_le := (hc.pc_toNat hf h.stack_le).trans_le (pcAfter_le instr h hf)
  stack_le := hc.stack_le hf h.stack_le

/-! ## What steps and transactions write beside that takes no part in the invariants -/

theorem State.Inv.raise {s : State} (h : s.Inv) (kind : FaultKind) : (s.raise kind).Inv :=
  ⟨h.mem_wf, h.index_le, h.pc_le, h.stack_le⟩

theorem State.Inv.tick {s : State} (h : s.Inv) : s.tick.Inv := ⟨h.mem_wf, h.index_le, h.pc_le, h.stack_le⟩

theorem State.Inv.latchOpc {s : State} (h : s.Inv) (op : Word) : (s.latchOpc op).Inv :=
  ⟨h.mem_wf, h.index_le, h.pc_le, h.stack_le⟩

theorem State.Inv.keySet {s : State} (h : s.Inv) (key : Reg) (level : Bool) : (s.keySet key level).Inv :=
  ⟨h.mem_wf, h.index_le, h.pc_le, h.stack_le⟩

theorem State.Inv.dirtyClear {s : State} (h : s.Inv) : s.dirtyClear.Inv := ⟨h.mem_wf, h.index_le, h.pc_le, h.stack_le⟩

/-- The image `loadProgram` copies fits between 200 and the end of memory. -/
theorem length_image_le (bytes : List Byte) : Config.loadAddr + (bytes.take Config.maxRom).length ≤ 4096 := by
  have h := List.length_take_le Config.maxRom bytes
  simp only [Config.loadAddr, Config.maxRom] at *
  omega

theorem State.Inv.loadProgram {s : State} (h : s.Inv) (bytes : List Byte) : (s.loadProgram bytes).2.Inv := by
  cases bytes with
  | nil => exact h
  | cons b bs => exact ⟨Memory.writeBytes_wf s.mem _ _ h.mem_wf (length_image_le _), h.index_le, h.pc_le, h.stack_le⟩

/-- Fresh state after reset: nothing written, `I` 0, `pc` 200, no entry in use. -/
theorem State.Inv.hostReset (s : State) : s.hostReset.Inv where
  mem_wf := Memory.reset_wf
  index_le := by rw [State.hostReset_i]; decide
  pc_le := by rw [State.hostReset_pc]; decide
  stack_le := fun _ hj => absurd hj (Nat.not_lt_zero _)

/-! ## The obligations -/

/-- Settles O50: a fault writes the latch, which the invariants do not look at, and a completed instruction keeps them. -/
theorem stepKeepsInvariants : Obligations.StepKeepsInvariants := by
  intro s t h hstep
  obtain ⟨-, rfl⟩ | ⟨-, -, rfl⟩ | ⟨-, -, -, rfl⟩ | ⟨hfault, hf, instr, -, hd, -, -⟩ := step_cases s t hstep
  · exact h
  · exact h.raise _
  · exact h.raise _
  · obtain ⟨kind, -, rfl⟩ | ⟨-, u, hc, rfl⟩ := step_instr_cases hfault hf hd hstep
    · exact h.raise kind
    · exact (hc.inv (h.latchOpc _) hf).tick

/-- Settles O53: one lemma per transaction, the step's being O50. -/
theorem everyTransactionKeepsInvariants : Obligations.EveryTransactionKeepsInvariants := by
  intro s t h
  cases t with
  | hostReset => exact .hostReset s
  | loadProgram bytes => exact h.loadProgram bytes
  | keySet key level => exact h.keySet key level
  | dirtyClear => exact h.dirtyClear
  | step =>
    obtain ⟨u, hu⟩ := step_next s
    have hperform : s.perform .step = u := by rw [State.perform, hu]
    exact hperform ▸ stepKeepsInvariants s u h hu

/-- Settles O49: the state after reset is what the host's reset leaves of it. -/
theorem invariantsHoldAtReset : Obligations.InvariantsHoldAtReset := State.Inv.hostReset State.reset

/-- Settles O51: by induction on the transactions, from O49 and O53. -/
theorem reachableStatesSatisfyInvariants : Obligations.ReachableStatesSatisfyInvariants := by
  intro s hs
  induction hs with
  | reset => exact invariantsHoldAtReset
  | perform s t _ ih => exact everyTransactionKeepsInvariants s t ih

/-- Settles O52: the popped entry is at most FFE, and the return adds 2. -/
theorem returnStaysBelowTheEnd : Obligations.ReturnStaysBelowTheEnd := by
  intro s t h hsp he
  obtain rfl := Host.Outcome.next.inj ((exec_ret_ok s hsp).symm.trans he)
  have hle : (s.stk[s.sp.val - 1]).toNat ≤ 0x0FFE := h.stack_le ⟨s.sp.val - 1, by omega⟩ (Nat.sub_lt hsp Nat.one_pos)
  rw [State.jump_pc]
  bv_omega

end Sys2Proof.Machine


/-! # Control transfer: the return, the call and the jump with offset (41_flow.md R110, R112, R117, R118) -/

namespace Sys2Proof.Machine

/-- 00EE with entry `j` the newest: `pc` two past it, SP back to `j`, the entry staying in the stack. -/
theorem completes_ret (s : State) (j : Reg) (hsp : s.sp.val = j.val + 1) (hj : (s.stk[j]).toNat ≤ 0x0FFE) :
    ∃ t, exec .ret s = .next t ∧ t.pc.toNat = (s.stk[j]).toNat + 2 ∧ t.sp.val = j.val ∧
      FrameExcept (fun p => p = .pc ∨ p = .sp) s t := by
  have htop : s.stk[s.sp.val - 1]'(by omega) = s.stk[j] := by simp only [hsp, Nat.add_sub_cancel, Fin.getElem_fin]
  refine ⟨_, exec_ret_ok s (by omega), ?pc, ?sp, ?frame⟩
  case pc => rw [State.jump_pc, htop]; bv_omega
  case sp => exact Nat.sub_eq_of_eq_add hsp
  case frame => exact ((frame_setSp s _).mono fun _ h => .inr h).trans ((frame_jump _ _).mono fun _ h => .inl h)

/-- 2nnn with entry `j` the first one free: the call's own address goes there, SP past it, `pc` to `nnn`. -/
theorem completes_call (nnn : Addr) (s : State) (j : Reg) (hsp : s.sp.val = j.val) :
    ∃ t, exec (.call nnn) s = .next t ∧ t.stk[j] = s.pc ∧ t.sp.val = j.val + 1 ∧ t.pc.toNat = nnn.toNat ∧
      FrameExcept (fun p => p = .pc ∨ p = .sp ∨ p = .stk j) s t := by
  have hlt : s.sp.val < 16 := hsp ▸ j.isLt
  obtain rfl : ⟨s.sp.val, hlt⟩ = j := Fin.ext hsp
  exact ⟨_, exec_call_ok nnn s hlt, Vector.getElem_set_self hlt, rfl, zext16_toNat nnn,
    ((frame_pushEntry s ⟨s.sp.val, hlt⟩ s.pc _).mono fun _ h => .inr h).trans ((frame_jump _ _).mono fun _ h => .inl h)⟩

/-- Settles O20: a pop writes SP alone, and the sum on the popped entry passes no 16-bit bound. -/
theorem returnPopsTheStack : Obligations.ReturnPopsTheStack :=
  ⟨by decide, fun s => ⟨exec_ret_fault s, completes_ret s⟩⟩

/-- Settles O22: the word is format NNN of its fields, and a push writes SP and the entry SP names. -/
theorem callPushesItsOwnAddress : Obligations.CallPushesItsOwnAddress := by
  intro nnn s
  have h2 := formNNN_eq_ofNat 0x2 nnn
  exact ⟨h2 ▸ decode_formNNN_2 nnn, exec_call_fault nnn s, completes_call nnn s⟩

/-- Settles O25: the word is format NNN of its fields, and a 12-bit and an 8-bit number sum to no more than 16 bits. -/
theorem jumpWithOffsetIsNotReduced : Obligations.JumpWithOffsetIsNotReduced := by
  intro nnn s
  have hB := formNNN_eq_ofNat 0xB nnn
  refine ⟨hB ▸ decode_formNNN_B nnn, _, exec_jpV0 nnn s, ?_, frame_jump s _⟩
  have hn := nnn.isLt
  have hb := (s.reg 0).isLt
  rw [State.jump_pc, BitVec.toNat_add, zext16_toNat, byte16_toNat]
  omega

/-- Settles O26: the call leaves its address as the newest entry, which the return pops; SP goes up and down again. -/
theorem callThenReturnComesBack : Obligations.CallThenReturnComesBack := by
  intro nnn s t u j hf hsp hcall hret
  obtain ⟨t', hcall', hentry, hspCall, -, hframeCall⟩ := completes_call nnn s j hsp
  obtain rfl : t = t' := Host.Outcome.next.inj (hcall.symm.trans hcall')
  have hle : (t.stk[j]).toNat ≤ 0x0FFE := by rw [hentry]; omega
  obtain ⟨u', hret', hpc, hspRet, hframeRet⟩ := completes_ret t j hspCall hle
  obtain rfl : u = u' := Host.Outcome.next.inj (hret.symm.trans hret')
  have hspBack : u.sp = s.sp := Fin.ext (hspRet.trans hsp.symm)
  refine ⟨by rw [hpc, hentry], hspBack, fun p hp => ?_⟩
  by_cases hpsp : p = .sp
  · exact hpsp ▸ hspBack
  · refine p.same_trans (hframeCall p ?_) (hframeRet p ?_)
    · rintro (h | h | h)
      · exact hp (.inl h)
      · exact hpsp h
      · exact hp (.inr h)
    · rintro (h | h)
      · exact hp (.inl h)
      · exact hpsp h

end Sys2Proof.Machine


/-! # Register instructions with a flag, and the random byte (42_alu.md R136 to R143) -/

namespace Sys2Proof.Machine

/-! ## Flags as numbers (42_alu.md R142) -/

theorem flagByte_toNat (c : Bool) : (flagByte c).toNat = c.toNat := by
  cases c <;> rfl

theorem flagByte_decide_toNat (c : Prop) [Decidable c] : (flagByte (decide c)).toNat = if c then 1 else 0 := by
  rw [flagByte_toNat]
  by_cases hc : c <;> simp [hc]

theorem lowBit_toNat (a : Byte) : (lowBit a).toNat = a.toNat % 2 := by
  rw [lowBit, flagByte_toNat, BitVec.getLsbD, Nat.toNat_testBit, Nat.pow_zero, Nat.div_one]

theorem highBit_toNat (a : Byte) : (highBit a).toNat = a.toNat / 128 := by
  have ha := a.isLt
  rw [highBit, flagByte_toNat, BitVec.getLsbD, Nat.toNat_testBit]
  omega

/-- A difference of bytes is the integer difference modulo 256. -/
theorem sub_toNat_emod (a b : Byte) : ((a - b).toNat : Int) = ((a.toNat : Int) - b.toNat) % 256 := by
  have ha := a.isLt
  have hb := b.isLt
  rw [BitVec.toNat_sub]
  omega

/-! ## The two orders of writing (42_alu.md R143) -/

section
variable {instr : Instr} {s : State} {x : Reg} {r f : Byte}

/-- An instruction that writes its result, then its flag: the flag stays where `x` is 15. -/
theorem completes_resultThenFlag (P Q : Byte → Prop)
    (he : exec instr s = .next (s.setResultThenFlag x r f).advance) (hf : s.fetchable) (hP : P r) (hQ : Q f) :
    ∃ t, exec instr s = .next t ∧ (x ≠ 15 → P (t.reg x)) ∧ Q (t.reg 15) ∧ t.pc.toNat = s.pc.toNat + 2 ∧
      FrameExcept (writesRegAndFlag x) s t := by
  refine ⟨_, he, fun hx => ?_, ?_, State.advance_toNat (s.setResultThenFlag x r f) hf,
    ((frame_setResultThenFlag s x r f).mono fun _ h => .inr h).trans ((frame_advance _).mono fun _ h => .inl h)⟩
  · rwa [State.reg_advance, State.reg_setResultThenFlag, if_neg hx, if_pos rfl]
  · rwa [State.reg_advance, State.reg_setResultThenFlag, if_pos rfl]

/-- An instruction that writes its flag, then its result: the result stays where `x` is 15. -/
theorem completes_flagThenResult (P Q : Byte → Prop)
    (he : exec instr s = .next (s.setFlagThenResult x r f).advance) (hf : s.fetchable) (hP : P r) (hQ : Q f) :
    ∃ t, exec instr s = .next t ∧ P (t.reg x) ∧ (x ≠ 15 → Q (t.reg 15)) ∧ t.pc.toNat = s.pc.toNat + 2 ∧
      FrameExcept (writesRegAndFlag x) s t := by
  refine ⟨_, he, ?_, fun hx => ?_, State.advance_toNat (s.setFlagThenResult x r f) hf,
    ((frame_setFlagThenResult s x r f).mono fun _ h => .inr h).trans ((frame_advance _).mono fun _ h => .inl h)⟩
  · rwa [State.reg_advance, State.reg_setFlagThenResult, if_pos rfl]
  · rwa [State.reg_advance, State.reg_setFlagThenResult, if_neg (Ne.symm hx), if_pos rfl]

end

/-! ## The obligations -/

/-- Settles O29: the word is format XYN of its fields, and the flag is written after the sum. -/
theorem addRegistersWithCarry : Obligations.AddRegistersWithCarry := by
  intro x y s
  refine ⟨decode_ofNat_8xyn x y 4, fun hf => ?_⟩
  exact completes_resultThenFlag (fun r => r.toNat = ((s.reg x).toNat + (s.reg y).toNat) % 256)
    (fun f => f.toNat = if (s.reg x).toNat + (s.reg y).toNat > 255 then 1 else 0) (exec_addReg x y s) hf
    (BitVec.toNat_add _ _) (flagByte_decide_toNat _)

/-- Settles O30: each word is format XYN of its fields, and the flag is written after the difference. -/
theorem subtractRegistersWithNoBorrow : Obligations.SubtractRegistersWithNoBorrow := by
  intro x y s
  refine ⟨decode_ofNat_8xyn x y 5, decode_ofNat_8xyn x y 7, fun hf => ⟨?sub, ?subn⟩⟩
  case sub =>
    exact completes_resultThenFlag (fun r => (r.toNat : Int) = ((s.reg x).toNat - (s.reg y).toNat : Int) % 256)
      (fun f => f.toNat = if (s.reg x).toNat ≥ (s.reg y).toNat then 1 else 0) (exec_subReg x y s) hf
      (sub_toNat_emod _ _) (flagByte_decide_toNat _)
  case subn =>
    exact completes_resultThenFlag (fun r => (r.toNat : Int) = ((s.reg y).toNat - (s.reg x).toNat : Int) % 256)
      (fun f => f.toNat = if (s.reg y).toNat ≥ (s.reg x).toNat then 1 else 0) (exec_subnReg x y s) hf
      (sub_toNat_emod _ _) (flagByte_decide_toNat _)

/-- Settles O31: each word is format XYN of its fields, and the shifted value is written after the flag. -/
theorem shiftsByOne : Obligations.ShiftsByOne := by
  intro x y s
  refine ⟨decode_ofNat_8xyn x y 6, decode_ofNat_8xyn x y 14, fun hf => ⟨?right, ?left⟩⟩
  case right =>
    exact completes_flagThenResult (fun r => r.toNat = (s.reg x).toNat / 2) (fun f => f.toNat = (s.reg x).toNat % 2)
      (exec_shr x y s) hf (Nat.shiftRight_eq_div_pow _ 1) (lowBit_toNat _)
  case left =>
    exact completes_flagThenResult (fun r => r.toNat = (s.reg x).toNat * 2 % 256) (fun f => f.toNat = (s.reg x).toNat / 128)
      (exec_shl x y s) hf (by simp [Nat.shiftLeft_eq]) (highBit_toNat _)

/-- Settles O32: the word is format XKK of its fields, and masking is bit by bit. -/
theorem randomByteIsMasked : Obligations.RandomByteIsMasked := by
  intro x kk s
  have hC := formXKK_eq_ofNat 0xC x kk
  refine ⟨hC ▸ decode_formXKK_C x kk, fun hf => ⟨_, exec_rnd x kk s, ?_⟩⟩
  have hreg : ({ s.setReg x (Config.freeRnd s.draws &&& kk) with draws := s.draws + 1 } : State).advance.reg x =
      Config.freeRnd s.draws &&& kk := State.reg_setReg_self s x _
  rw [hreg]
  refine ⟨fun _ _ => BitVec.getLsbD_and, ?mask, rfl, ?pc, ?frame⟩
  case mask => rw [BitVec.and_assoc]; simp
  case pc => exact State.advance_toNat { s.setReg x _ with draws := s.draws + 1 } hf
  case frame =>
    exact ((frame_setReg s x _).mono fun _ h => .inl (.inr h)).trans
      (((frame_setDraws _ _).mono fun _ h => .inr h).trans ((frame_advance _).mono fun _ h => .inl (.inl h)))

end Sys2Proof.Machine


/-! # The store and the next fetch, the draw, the keys (20_memory.md R61, 44_display.md R181, 45_keys_timers.md R190 to R192) -/

namespace Sys2Proof.Machine

/-! ## A store over the next instruction (20_memory.md R61) -/

/-- Settles O39: Fx55 stores `V[0]` and `V[1]` at the `pc` it advances to. -/
theorem storeIsSeenByTheNextFetch : Obligations.StoreIsSeenByTheNextFetch := by
  intro x s t hm hf hx hi h he
  obtain ⟨-, hread⟩ := read_of_exec_stRegs hm h he
  have hpc : t.pc.toNat = s.i.toNat := by
    obtain rfl := Host.Outcome.next.inj ((exec_stRegs_ok x s h).symm.trans he)
    exact (State.advance_toNat { s with mem := _ } hf).trans hi.symm
  rw [State.wordAtPc, hpc]
  exact congrArg₂ wordOfBytes (hread 0 (Nat.zero_le _)) (hread 1 hx)

/-! ## Dxyn (44_display.md R181) -/

/-- Cell `64*cy + cx` is the pixel at column `cx` of row `cy` (10_state.md R27). -/
theorem Framebuffer.cell_eq_pixel (fb : Framebuffer) {cx cy : Nat} (hx : cx < 64) :
    fb.cell (64 * cy + cx) = fb.pixel cx cy := by
  have hmod : (64 * cy + cx) % 64 = cx := by omega
  have hdiv : (64 * cy + cx) / 64 = cy := by omega
  rw [Framebuffer.cell, hmod, hdiv]

/-- The bit of the sprite Dxyn draws from `s` at column `cx` and row `cy`. -/
def drawnBit (x y : Reg) (n : Nibble) (s : State) (cx cy : Nat) : Bool :=
  spriteBit s.mem s.i.toNat n.toNat (s.reg x).toNat (s.reg y).toNat cx cy

/-- Inside the grid a draw flips exactly the sprite's set bits. -/
theorem pixel_drawBlit (x y : Reg) (n : Nibble) (s : State) {cx cy : Nat} (hx : cx < 64) (hy : cy < 32) :
    (drawBlit x y n s).fb.pixel cx cy = (s.fb.pixel cx cy ^^ drawnBit x y n s cx cy) := by
  rw [(drawBlit_paints x y n s).pixel, decide_eq_true ⟨hx, hy⟩, Bool.true_and]
  rfl

/-- A draw collides exactly when a set bit of the sprite meets a set cell of the grid. -/
theorem collision_drawBlit_iff (x y : Reg) (n : Nibble) (s : State) : (drawBlit x y n s).collision = true ↔
    ∃ cx cy, cx < 64 ∧ cy < 32 ∧ s.fb.pixel cx cy = true ∧ drawnBit x y n s cx cy = true := by
  rw [(drawBlit_paints x y n s).collision]
  simp only [Bool.false_eq_true, false_or, Bool.and_eq_true, decide_eq_true_eq]
  constructor
  · rintro ⟨cx, cy, ⟨⟨hx, hy⟩, hbit⟩, hset⟩
    exact ⟨cx, cy, hx, hy, hset, hbit⟩
  · rintro ⟨cx, cy, hx, hy, hset, hbit⟩
    exact ⟨cx, cy, ⟨⟨hx, hy⟩, hbit⟩, hset⟩

/-- The same, on the cells as the spec numbers them. -/
theorem collision_drawBlit_iff_cell (x y : Reg) (n : Nibble) (s : State) : (drawBlit x y n s).collision = true ↔
    ∃ cx cy, cx < 64 ∧ cy < 32 ∧ s.fb.cell (64 * cy + cx) = true ∧ drawnBit x y n s cx cy = true := by
  rw [collision_drawBlit_iff]
  refine exists₂_congr fun cx cy => and_congr_right fun hx => ?_
  rw [s.fb.cell_eq_pixel hx]

theorem flagByte_eq_one_iff (c : Bool) : flagByte c = 1 ↔ c = true := by
  cases c <;> decide

/-- The state after Dxyn inside memory, `pc` not yet moved (44_display.md R181). -/
def State.drawn (s : State) (x y : Reg) (n : Nibble) : State :=
  ({ s with fb := (drawBlit x y n s).fb, dirty := true } : State).setReg vf (flagByte (drawBlit x y n s).collision)

theorem exec_drw_drawn (x y : Reg) (n : Nibble) (s : State) (h : s.i.toNat + n.toNat ≤ 4096) :
    exec (.drw x y n) s = .next (s.drawn x y n).advance := exec_drw_ok x y n s h

@[simp] theorem State.reg_drawn_vf (s : State) (x y : Reg) (n : Nibble) :
    (s.drawn x y n).reg 15 = flagByte (drawBlit x y n s).collision := State.reg_setReg_self _ vf _

theorem State.reg_drawn_ne (s : State) (x y : Reg) (n : Nibble) {j : Reg} (hj : j ≠ 15) : (s.drawn x y n).reg j = s.reg j :=
  State.reg_setReg_ne _ vf j _ hj

@[simp] theorem State.fb_drawn (s : State) (x y : Reg) (n : Nibble) : (s.drawn x y n).fb = (drawBlit x y n s).fb := rfl

/-- Settles O41: the word is format XYN of its fields, and the blit paints the sprite's bits inside the grid. -/
theorem drawSprite : Obligations.DrawSprite := by
  intro x y n s
  have hD := formXYN_eq_ofNat 0xD x y n
  refine ⟨hD ▸ decode_formXYN_D x y n,
    fun hf h => ⟨_, exec_drw_drawn x y n s h, fun cx cy hx hy => ?cells, fun hc => ?hit, fun hc => ?miss, rfl, ?pc, ?frame⟩,
    exec_drw_fault x y n s⟩
  case cells =>
    rw [State.advance_fb, State.fb_drawn, Framebuffer.cell_eq_pixel _ hx, s.fb.cell_eq_pixel hx]
    exact pixel_drawBlit x y n s hx hy
  case hit =>
    rw [State.reg_advance, State.reg_drawn_vf, (collision_drawBlit_iff_cell x y n s).mpr hc]
    rfl
  case miss =>
    rw [State.reg_advance, State.reg_drawn_vf, Bool.eq_false_iff.mpr (mt (collision_drawBlit_iff_cell x y n s).mp hc)]
    rfl
  case pc => exact State.advance_toNat (s.drawn x y n) hf
  case frame =>
    exact ((frame_setCells s _).mono fun _ h => .inr (.inr h)).trans
      (((frame_setReg _ vf _).mono fun _ h => .inr (.inl h)).trans ((frame_advance _).mono fun _ h => .inl h))

/-- A second draw of the same operands, neither of them VF, draws the same sprite. -/
theorem drawnBit_drawn (x y : Reg) (n : Nibble) (s : State) (hx : x ≠ 15) (hy : y ≠ 15) :
    drawnBit x y n (s.drawn x y n).advance = drawnBit x y n s := by
  funext cx cy
  rw [drawnBit, State.reg_advance, State.reg_advance, s.reg_drawn_ne x y n hx, s.reg_drawn_ne x y n hy]
  rfl

/-- Settles O42: the second draw flips the same cells again, and meets a set cell exactly where the first one met a clear one. -/
theorem drawTwiceRestores : Obligations.DrawTwiceRestores := by
  intro x y n s t u hx hy h he1 he2
  obtain rfl := Host.Outcome.next.inj ((exec_drw_drawn x y n s h).symm.trans he1)
  obtain rfl := Host.Outcome.next.inj ((exec_drw_drawn x y n (s.drawn x y n).advance h).symm.trans he2)
  have hbit := drawnBit_drawn x y n s hx hy
  have hpixel : ∀ {cx cy : Nat}, cx < 64 → cy < 32 →
      (s.drawn x y n).advance.fb.pixel cx cy = (s.fb.pixel cx cy ^^ drawnBit x y n s cx cy) := pixel_drawBlit x y n s
  constructor
  · refine Framebuffer.ext_pixel _ _ fun cx cy hcx hcy => ?_
    rw [State.advance_fb, State.fb_drawn, pixel_drawBlit _ _ _ _ hcx hcy, hbit, hpixel hcx hcy, Bool.xor_assoc,
      Bool.xor_self, Bool.xor_false]
  · rw [State.reg_advance, State.reg_drawn_vf, flagByte_eq_one_iff, collision_drawBlit_iff, hbit]
    refine exists₂_congr fun cx cy => and_congr_right fun hcx => and_congr_right fun hcy => ?_
    rw [hpixel hcx hcy, s.fb.cell_eq_pixel hcx]
    refine and_congr_left fun hset => ?_
    rw [hset, Bool.xor_true, Bool.not_eq_true']

/-! ## Keys (45_keys_timers.md R190 to R192) -/

/-- The word Exkk, its low byte added to the family's base. -/
theorem decode_ofNat_Exkk (x : Reg) (kk : Byte) :
    decode (BitVec.ofNat 16 (0xE000 + kk.toNat + 256 * x.val)) = decodeE x kk := by
  have hword : 0xE000 + kk.toNat + 256 * x.val = 4096 * (0xE : Nibble).toNat + 256 * x.val + kk.toNat := by
    have hE : (0xE : Nibble).toNat = 14 := rfl
    omega
  rw [hword, ← formXKK_eq_ofNat, decode_formXKK_E]

/-- Settles O43: each word is format XKK of its fields, and each skip is a `skipIf` on the level of the key `V[x]` names. -/
theorem skipsOnKeys : Obligations.SkipsOnKeys := by
  intro x s
  refine ⟨decode_ofNat_Exkk x 0x9E, decode_ofNat_Exkk x 0xA1,
    fun key hf hkey => ⟨⟨_, exec_skp_ok x key s hkey, s.skipIf_toNat _ hf, frame_skipIf s _⟩,
      ⟨_, exec_sknp_ok x key s hkey, ?released, frame_skipIf s _⟩⟩,
    fun h => ⟨exec_skp_fault x s h, exec_sknp_fault x s h⟩⟩
  case released =>
    rw [s.skipIf_toNat _ hf]
    cases s.k[key] <;> rfl

/-- A pressed key with none pressed below it is the one `lowestKey` finds. -/
theorem State.lowestKey_eq {s : State} {key : Reg} (h : s.k[key] = true) (hlow : ∀ j : Reg, j < key → s.k[j] = false) :
    s.lowestKey = some key := by
  obtain ⟨j, hj, hpressed, hle⟩ := s.lowestKey_some key h
  have hge : key ≤ j := by
    by_contra hlt
    rw [hlow j (lt_of_not_ge hlt)] at hpressed
    cases hpressed
  rw [hj, le_antisymm (hle key h) hge]

/-- Settles O44: the word is format XKK of its fields, and the key taken is the lowest pressed one. -/
theorem waitForKey : Obligations.WaitForKey := by
  intro x s
  refine ⟨decode_ofNat_Fxkk x 0x0A, exec_ldVxK_waiting x s, fun key hf hkey hlow => ?_⟩
  have hnum : (BitVec.ofNat 8 key.val).toNat = key.val := by
    rw [BitVec.toNat_ofNat]
    omega
  exact completes_setReg_advance (fun r => r.toNat = key.val) (exec_ldVxK_pressed x key s (s.lowestKey_eq hkey hlow)) hf hnum

end Sys2Proof.Machine


/-! # The host's transactions (70_reset_and_hazards.md R240 to R244) -/

namespace Sys2Proof.Machine

/-! ## Memory after reset (20_memory.md R51, R52) -/

theorem length_font : font.length = 80 := by decide

theorem resetByte_font {a : Nat} (h : a < 80) : some (resetByte a) = font[a]? := by
  have hlt : a < font.length := length_font ▸ h
  rw [resetByte, List.getD_eq_getElem _ _ hlt, List.getElem?_eq_getElem hlt]

theorem resetByte_above_font {a : Nat} (h : 80 ≤ a) : resetByte a = 0 := by
  rw [resetByte, List.getD_eq_default _ _ (length_font ▸ h)]

/-- Settles O46: reset memory lists nothing, so that each address reads as its reset byte, and the other fields are literal. -/
theorem resetValues : Obligations.ResetValues := by
  intro s
  have hreg : ∀ j : Reg, (Vector.replicate 16 (0 : Byte))[j] = 0 := fun j => Vector.getElem_replicate j.isLt
  have hstk : ∀ j : Reg, (Vector.replicate 16 (0 : Word))[j] = 0 := fun j => Vector.getElem_replicate j.isLt
  have hkey : ∀ j : Reg, (Vector.replicate 16 false)[j] = false := fun j => Vector.getElem_replicate j.isLt
  have hcell : ∀ n, n < 2048 → s.hostReset.fb.cell n = false := fun n _ => Framebuffer.pixel_clear (n % 64) (n / 64)
  exact ⟨hreg, rfl, rfl, rfl, hstk, rfl, rfl, hcell, rfl, hkey, rfl, rfl, fun _ h => resetByte_font h,
    fun _ h _ => resetByte_above_font h, rfl⟩

/-! ## `loadProgram`, `key_set` and `dirty_clear` -/

theorem State.loadProgram_of_ne_nil (s : State) {bytes : List Byte} (h : bytes ≠ []) : s.loadProgram bytes =
    (.ok, { s with mem := s.mem.writeBytes Config.loadAddr (bytes.take Config.maxRom) }) := by
  cases bytes with
  | nil => exact absurd rfl h
  | cons b bs => rfl

/-- Settles O47: the image is a block stored inside memory, cut at 3584 bytes. -/
theorem loadProgramCopiesTheImage : Obligations.LoadProgramCopiesTheImage := by
  intro s bytes
  refine ⟨by rintro rfl; rfl, fun h hm => ⟨_, s.loadProgram_of_ne_nil h, fun j hj hmax => ?image, ?frame⟩⟩
  case image =>
    have hjlen : j < (bytes.take Config.maxRom).length := by rw [List.length_take]; exact lt_min hmax hj
    exact (Memory.read_writeBytes_inside s.mem _ j _ hm (length_image_le bytes) hjlen).trans List.getElem_take
  case frame =>
    refine (frame_writeBytes s _ _).mono ?_
    rintro _ ⟨a, hlo, hhi, rfl⟩
    rw [List.length_take, Nat.min_comm] at hhi
    exact ⟨a, hlo, hhi, rfl⟩

theorem frame_keySet (s : State) (key : Reg) (level : Bool) :
    FrameExcept (fun p => p = .key key) s (s.keySet key level) := by
  intro p hp
  cases p with
  | key k =>
    have hk : key.val ≠ k.val := fun h => hp (congrArg Part.key (Fin.ext h.symm))
    exact Vector.getElem_set_ne key.isLt k.isLt hk
  | _ => rfl

theorem frame_dirtyClear (s : State) : FrameExcept (fun p => p = .dirty) s s.dirtyClear := by
  intro p hp
  cases p with
  | dirty => exact absurd rfl hp
  | _ => rfl

/-- Settles O48: each of the two is one write to one part. -/
theorem keySetAndDirtyClear : Obligations.KeySetAndDirtyClear := fun s key level =>
  ⟨⟨Vector.getElem_set_self key.isLt, frame_keySet s key level⟩, rfl, frame_dirtyClear s⟩

end Sys2Proof.Machine
